-- ==== Sys2Proof/Word.lean ====
section
/-! DEFINITION. The data types of SALSA20-CORE: bytes, words, the 64-bit block position, the 16-word vector and the
64-byte bus (spec 00_scope.md R7, R11; 10_state.md R20, R34). -/

namespace Sys2Proof

/-- An unsigned 8-bit value (R11). -/
abbrev Byte := BitVec 8

/-- An unsigned 32-bit value (R11); `+` on it is addition modulo 2^32 and `^^^` is exclusive-or (R12). -/
abbrev Word := BitVec 32

/-- A block position: the 64-bit counter value (R7, COUNTER_WIDTH = 64; R25); `+` on it is addition modulo 2^64 (R12). -/
abbrev Position := BitVec 64

/-- An ordered sequence of 16 words: the state matrix (R20) or a vector on a bus (R84). -/
abbrev WordVec := Vector Word 16

/-- The 64 bytes of a data bus, DIN or DOUT (R34). -/
abbrev Bus := Vector Byte 64

end Sys2Proof
end

