-- ==== Sys2Proof/Syntax.lean ====
section
/-! DEFINITION. The commands of SALSA20-CORE (spec 30_encoding.md R72 to R74), and the lines of its assembler (R85, R86). -/

namespace Sys2Proof

/-- The eight commands, one constructor per row of the opcode map (R74). An operand field's range is its type (R72, R73):
KLEN and NLEN are byte counts 0..255, IA to ID are word positions 0..15. -/
inductive Instr where
  /-- INIT, format L, OPC 0x1 (R146). -/
  | init (klen nlen : Fin 256)
  /-- SET_POS, format N, OPC 0x2 (R137). -/
  | setPos
  /-- GET_POS, format N, OPC 0x3 (R135). -/
  | getPos
  /-- GEN_BLOCK, format N, OPC 0x4 (R122). -/
  | genBlock
  /-- QROUND a, b, c, d, format Q, OPC 0x5 (R109). -/
  | qround (a b c d : Fin 16)
  /-- DROUND, format N, OPC 0x6 (R111). -/
  | dround
  /-- PERMUTE, format N, OPC 0x7 (R113). -/
  | permute
  /-- GET_INFO, format N, OPC 0x8 (R150). -/
  | getInfo
  deriving DecidableEq, Repr

/-- The three forms of the `.din` directive (R85). -/
inductive DinDirective where
  /-- `.din key=…, nonce=…`: DIN[0..31] and DIN[32..39]. -/
  | keyNonce (key nonce : List Byte)
  /-- `.din pos=…`: DIN[0..7] = LE64. -/
  | pos (n : Nat)
  /-- `.din w=…`: DINW(0..15). -/
  | words (ws : List Word)
  deriving DecidableEq, Repr

/-- One assembler line (R85) or pseudo-command (R86), operands as written, not yet checked against their fields' ranges.
The line's text (decimal or hex spelling, comments) is not modelled (log 16). -/
inductive AsmLine where
  | din (d : DinDirective)
  /-- `INIT klen=…, nlen=…`; an omitted length is `none` (R85: they "default to 32 and 8"). -/
  | init (klen nlen : Option Nat)
  | setPos
  | getPos
  | genBlock
  | qround (a b c d : Nat)
  | dround
  | permute
  | getInfo
  /-- Pseudo `NEW key, nonce` (R86). -/
  | new (key nonce : List Byte)
  /-- Pseudo `SEEK n` (R86). -/
  | seek (n : Nat)
  /-- Pseudo `REWIND` (R86). -/
  | rewind
  /-- Pseudo `QR a, b, c, d` (R86). -/
  | qr (a b c d : Nat)
  deriving DecidableEq, Repr

end Sys2Proof
end

