-- ==== Sys2Proof/Decode.lean ====
section
/-! DEFINITION. The command decoder, total on every 32-bit word (spec 30_encoding.md R71 to R79), and the encoder written from
the same formats (R72) and opcode map (R74). -/

namespace Sys2Proof

/-- Why a command word is no command. Both reasons are the one status ILLEGAL_COMMAND (R75, R76, R204). -/
inductive DecodeError where
  /-- OPC is 0x0 or 0x9 to 0xF (R75). -/
  | reservedOpcode
  /-- The reserved field of the opcode's format is not zero (R76). -/
  | reservedField
  deriving DecidableEq, Repr

namespace Cmd

/-- OPC = CMD[3:0], in every format (R71). -/
def opc (cmd : Word) : BitVec 4 := cmd.extractLsb' 0 4

/-- RSVD = CMD[31:4] of format N (R72). -/
def rsvdN (cmd : Word) : BitVec 28 := cmd.extractLsb' 4 28

/-- RSVD = CMD[31:20] of formats L and Q (R72). -/
def rsvdLQ (cmd : Word) : BitVec 12 := cmd.extractLsb' 20 12

/-- KLEN = CMD[11:4] of format L (R72). -/
def klen (cmd : Word) : Fin 256 := (cmd.extractLsb' 4 8).toFin

/-- NLEN = CMD[19:12] of format L (R72). -/
def nlen (cmd : Word) : Fin 256 := (cmd.extractLsb' 12 8).toFin

/-- IA = CMD[7:4] of format Q (R72). -/
def ia (cmd : Word) : Fin 16 := (cmd.extractLsb' 4 4).toFin

/-- IB = CMD[11:8] of format Q (R72). -/
def ib (cmd : Word) : Fin 16 := (cmd.extractLsb' 8 4).toFin

/-- IC = CMD[15:12] of format Q (R72). -/
def ic (cmd : Word) : Fin 16 := (cmd.extractLsb' 12 4).toFin

/-- ID = CMD[19:16] of format Q (R72). -/
def id (cmd : Word) : Fin 16 := (cmd.extractLsb' 16 4).toFin

end Cmd

/-- A format N command: `i`, unless CMD[31:4] is not zero (R76, R78). -/
def decodeN (cmd : Word) (i : Instr) : Except DecodeError Instr :=
  if Cmd.rsvdN cmd ≠ 0 then .error .reservedField else .ok i

/-- A format L or Q command: `i`, unless CMD[31:20] is not zero (R76, R78). -/
def decodeLQ (cmd : Word) (i : Instr) : Except DecodeError Instr :=
  if Cmd.rsvdLQ cmd ≠ 0 then .error .reservedField else .ok i

/-- The decoder (R78). -/
def decode (cmd : Word) : Except DecodeError Instr :=
  match (Cmd.opc cmd).toNat with
  | 0x1 => decodeLQ cmd (.init (Cmd.klen cmd) (Cmd.nlen cmd))
  | 0x2 => decodeN cmd .setPos
  | 0x3 => decodeN cmd .getPos
  | 0x4 => decodeN cmd .genBlock
  | 0x5 => decodeLQ cmd (.qround (Cmd.ia cmd) (Cmd.ib cmd) (Cmd.ic cmd) (Cmd.id cmd))
  | 0x6 => decodeN cmd .dround
  | 0x7 => decodeN cmd .permute
  | 0x8 => decodeN cmd .getInfo
  | _ => .error .reservedOpcode

/-- Format N: RSVD ‖ OPC (R72). -/
def encodeN (opc : BitVec 4) : Word := 0#28 ++ opc

/-- Format L: RSVD ‖ NLEN ‖ KLEN ‖ OPC (R72). -/
def encodeL (opc : BitVec 4) (klen nlen : Fin 256) : Word :=
  0#12 ++ BitVec.ofFin (w := 8) nlen ++ BitVec.ofFin (w := 8) klen ++ opc

/-- Format Q: RSVD ‖ ID ‖ IC ‖ IB ‖ IA ‖ OPC (R72). -/
def encodeQ (opc : BitVec 4) (a b c d : Fin 16) : Word :=
  0#12 ++ BitVec.ofFin (w := 4) d ++ BitVec.ofFin (w := 4) c ++ BitVec.ofFin (w := 4) b ++ BitVec.ofFin (w := 4) a ++ opc

/-- The command word of a command (R72, R74). -/
def encode : Instr → Word
  | .init klen nlen => encodeL 0x1 klen nlen
  | .setPos => encodeN 0x2
  | .getPos => encodeN 0x3
  | .genBlock => encodeN 0x4
  | .qround a b c d => encodeQ 0x5 a b c d
  | .dround => encodeN 0x6
  | .permute => encodeN 0x7
  | .getInfo => encodeN 0x8

/-- R77: a word is a legal command exactly when OPC is in 0x1..0x8 and the reserved field of OPC's format is zero. -/
abbrev LegalCommand (cmd : Word) : Prop :=
  1 ≤ (Cmd.opc cmd).toNat ∧ (Cmd.opc cmd).toNat ≤ 8 ∧
  (Cmd.opc cmd = 0x1 ∨ Cmd.opc cmd = 0x5 → Cmd.rsvdLQ cmd = 0) ∧
  (Cmd.opc cmd ≠ 0x1 → Cmd.opc cmd ≠ 0x5 → Cmd.rsvdN cmd = 0)

/-- The first `nbits` bits of a command word numbered as the opcode table numbers them, the bits above them zero. Every row
of the table has all 32 bits of the command word (log 15). -/
def tableWord (nbits w : Nat) : Word := BitVec.ofNat 32 (w % 2 ^ nbits)

/-- The command the decoder reads from a table word; none where it refuses (log 15). -/
def decodeTableWord (nbits w : Nat) : Option Instr :=
  match decode (tableWord nbits w) with
  | .ok i => some i
  | .error _ => none

end Sys2Proof
end

