-- ==== Sys2Proof/Machine/Flags.lean ====
section
/-! DEFINITION. The status a command reports. The block has no condition codes and no arithmetic flags (spec 10_state.md R29): a
command reports its status code and KEYED in the response word (30_encoding.md R80; 60_exceptions.md R200). -/

namespace Sys2Proof.Machine

/-- The status codes (R200). Codes 5 to 15 are never produced (R80). -/
inductive Status where
  | ok
  | invalidLength
  | counterExhausted
  | notInitialised
  | illegalCommand
  deriving DecidableEq, Repr

/-- RSP.CODE of a status (R80, R200). -/
def statusCode : Status → BitVec 4
  | .ok => 0
  | .invalidLength => 1
  | .counterExhausted => 2
  | .notInitialised => 3
  | .illegalCommand => 4

/-- The response word: [31:5] zero, [4] KEYED, [3:0] CODE (R80). -/
def responseWord (keyed : Bool) (code : Status) : Word := 0#27 ++ BitVec.ofBool keyed ++ statusCode code

/-- RSP.CODE = RSP[3:0] (R80). -/
def rspCode (rsp : Word) : BitVec 4 := rsp.extractLsb' 0 4

/-- RSP.KEYED = RSP[4] (R80). -/
def rspKeyed (rsp : Word) : Bool := rsp.getLsbD 4

end Sys2Proof.Machine
end

