-- ==== Sys2Proof/Config.lean ====
section
/-! DEFINITION. What is fixed when an instance of SALSA20-CORE is built (spec 00_scope.md R7 to R10).

BACKEND and LATENCY are parameters no rule reads (R9, R10; log 8, log 9). The spec leaves no result value open, so there is
no free value here. -/

namespace Sys2Proof

/-- KEY_LEN in bytes (R7). -/
def keyLen : Nat := 32

/-- NONCE_LEN in bytes (R7). -/
def nonceLen : Nat := 8

/-- BLOCK_LEN in bytes (R7). -/
def blockLen : Nat := 64

/-- The construction-time parameters of one instance. -/
structure Config where
  /-- R, the number of double rounds: 8 bits, read by the host in INFO[31:24] (R8, R30). -/
  rounds : BitVec 8
  deriving DecidableEq, Repr

namespace Config

/-- R as a count. -/
def doubleRounds (c : Config) : Nat := c.rounds.toNat

/-- R8: "with 1 ≤ R ≤ 255". The upper bound is the width of the field. -/
abbrev Legal (c : Config) : Prop := c.rounds ≠ 0

/-- The standard instance, Salsa20/20: R = 10 (R2, R8; 92_eei_decisions.md D11 "a default of 10"). -/
def standard : Config := ⟨10⟩

end Config

end Sys2Proof
end

