-- ==== Sys2Proof/Machine/Operands.lean ====
section
/-! DEFINITION. The operand forms of the commands: the little-endian views of the data buses (spec 00_scope.md R13;
20_memory.md R51 to R55) and the DIN fields each command reads (30_encoding.md R84). -/

namespace Sys2Proof.Machine

/-- LE32(b0, b1, b2, b3) (R13): b0 in the low byte. -/
def le32 (b0 b1 b2 b3 : Byte) : Word := b3 ++ b2 ++ b1 ++ b0

/-- hi32 ‖ lo32 (R11). -/
def concatWords (hi lo : Word) : Position := hi ++ lo

/-- LE64(b0..b7) (R13). -/
def le64 (b0 b1 b2 b3 b4 b5 b6 b7 : Byte) : Position := concatWords (le32 b4 b5 b6 b7) (le32 b0 b1 b2 b3)

/-- Byte j of a word: its bits [8j+7 : 8j] (R51). -/
def wordByte (w : Word) (j : Nat) : Byte := w.extractLsb' (8 * j) 8

/-- Byte j of a block position: its bits [8j+7 : 8j] (R54). -/
def positionByte (n : Position) (j : Nat) : Byte := n.extractLsb' (8 * j) 8

/-- 64 zero bytes (R82, R205). -/
def zeroBus : Bus := Vector.replicate 64 0

/-- Word i of a bus: DINW(i) = LE32(DIN[4i], DIN[4i+1], DIN[4i+2], DIN[4i+3]) (R51). -/
def busWord (b : Bus) (i : Fin 16) : Word := le32 b[4 * i.val] b[4 * i.val + 1] b[4 * i.val + 2] b[4 * i.val + 3]

/-- The sixteen words of a bus, (DINW(0), ..., DINW(15)) (R84). -/
@[irreducible] def busWords (b : Bus) : WordVec := Vector.ofFn (busWord b)

/-- The bus whose words are v: DOUTW(i) <- v[i] for i = 0..15 (R51); byte 4i+j is bits [8j+7:8j] of word i (R52). -/
@[irreducible] def wordsToBus (v : WordVec) : Bus := Vector.ofFn fun k => wordByte v[k.val / 4] (k.val % 4)

/-- The bus with word 0 = w and every other byte zero (R82, GET_INFO). -/
@[irreducible] def wordToBus (w : Word) : Bus := Vector.ofFn fun k => if k.val < 4 then wordByte w k.val else 0

/-- SET_POS's operand n = LE64(DIN[0..7]) (R54, R84). -/
def busPosition (b : Bus) : Position := le64 b[0] b[1] b[2] b[3] b[4] b[5] b[6] b[7]

/-- The bus with bytes 0..7 = LE64 of n and every other byte zero (R54; R82, GET_POS). -/
@[irreducible] def positionToBus (n : Position) : Bus := Vector.ofFn fun k => if k.val < 8 then positionByte n k.val else 0

/-- INIT's key operand: K_i = LE32(key[4i..4i+3]) with key[0..31] = DIN[0..31] (R22, R84). -/
@[irreducible] def busKey (b : Bus) : Vector Word 8 :=
  Vector.ofFn fun i => le32 b[4 * i.val] b[4 * i.val + 1] b[4 * i.val + 2] b[4 * i.val + 3]

/-- INIT's nonce operand: N_i = LE32(nonce[4i..4i+3]) with nonce[0..7] = DIN[32..39] (R23, R84). -/
@[irreducible] def busNonce (b : Bus) : Vector Word 2 :=
  Vector.ofFn fun i => le32 b[32 + 4 * i.val] b[32 + 4 * i.val + 1] b[32 + 4 * i.val + 2] b[32 + 4 * i.val + 3]

/-- The INFO register (R30): ROUNDS ‖ NONCE_LEN ‖ KEY_LEN ‖ BLOCK_LEN. -/
def infoWord (c : Config) : Word :=
  c.rounds ++ BitVec.ofNat 8 nonceLen ++ BitVec.ofNat 8 keyLen ++ BitVec.ofNat 8 blockLen

end Sys2Proof.Machine
end

