-- ==== Sys2Proof/Machine/State.lean ====
section
/-! DEFINITION. The state of SALSA20-CORE and its command port (spec 10_state.md; 30_encoding.md R70, R80; 70_reset_and_hazards.md
R220, R221), the reasons a step can stop, and the state after reset (10_state.md R35). -/

namespace Sys2Proof.Machine

/-- Why the machine would stop with a fault: never. Every command the block accepts is answered (70_reset_and_hazards.md R233),
an illegal one too (R204), and an error is a status code in a response (R208), so no constructor is needed (log 7; safe). -/
inductive Fault where
  deriving DecidableEq, Repr

/-- Why an instruction would have no meaning. -/
inductive Refusal where
  /-- An opcode-table row without a meaning yet: raised by `exec`'s arm for it, by no meaning. Safe. No arm raises it. -/
  | notModelled (mnemonic : String)
  deriving DecidableEq, Repr

/-- What the outside presents at the port, one event at a time (log 3). -/
inductive PortEvent where
  /-- The host presents a command, a pair (CMD, DIN) (R70). -/
  | command (cmd : Word) (din : Bus)
  /-- The platform asserts reset while no command is in flight (R220). -/
  | reset
  /-- The platform asserts reset after a command was accepted and before it was answered (R221; log 6). -/
  | commandCutByReset (cmd : Word) (din : Bus)
  deriving DecidableEq, Repr

/-- The block's state (10_state.md section 1) and its port. The four constant words are hardwired and INFO is fixed at
construction, so neither has storage (R21, R30). -/
structure State where
  /-- The construction parameters, R among them; no step changes them (R8). -/
  config : Config
  /-- K0 to K7, the words S[1..4] and S[11..14] (R22). Without a value while KEYED = 0 (R35): see `State.word?` (log 1). -/
  key : Vector Word 8
  /-- N0 and N1, the words S[6] and S[7] (R23). Without a value while KEYED = 0 (R35; log 1). -/
  nonce : Vector Word 2
  /-- T0, the word S[8], the low half of ctr (R24). Without a value while KEYED = 0 (R35; log 1). -/
  ctrLo : Word
  /-- T1, the word S[9], the high half of ctr (R24). Without a value while KEYED = 0 (R35; log 1). -/
  ctrHi : Word
  /-- KEYED (R28). -/
  keyed : Bool
  /-- DOUT, the output register (R34). -/
  dout : Bus
  /-- The port's DIN sample of the last accepted command; not block state (R34, R226; log 4). -/
  din : Bus
  /-- The port's RSP word of the last response; none while no response has been sent since reset (R80, R81, R221; log 5). -/
  rsp : Option Word
  /-- The events the outside has still to present, the next one first (R61, R225; log 3). -/
  pending : List PortEvent
  deriving DecidableEq, Repr

/-- The state right after reset of the instance built with parameters `c` (R35, R220). The stored bits of the twelve words
that hold "no value" are zero (DESIGN CHOICE, log 1); `State.word?` shows them as no value. -/
def State.resetFor (c : Config) : State where
  config := c
  key := Vector.replicate 8 0
  nonce := Vector.replicate 2 0
  ctrLo := 0
  ctrHi := 0
  keyed := false
  dout := Vector.replicate 64 0
  din := Vector.replicate 64 0
  rsp := none
  pending := []

/-- The machine right after reset: the standard instance, R = 10 (log 2). -/
def State.reset : State := State.resetFor Config.standard

end Sys2Proof.Machine
end

