-- ==== Sys2Proof/Machine/Ops.lean ====
section
/-! DEFINITION. The shared operations of the commands: the word arithmetic (spec 00_scope.md R12), the accessors of the state
matrix and the counter (10_state.md R20 to R26), ending a command with OK or with an error (00_scope.md R14; 60_exceptions.md R205),
and the port's acceptance of a command and of reset (70_reset_and_hazards.md R220, R226).

ERRORS. The block has no traps (R208): an error saves no state, changes no mode and transfers no control, and there is no
return from it (R209). `State.raise` is the whole of taking one. -/

namespace Sys2Proof.Machine

/-- rotl(x, n), the left circular rotation (R12). -/
def rotl (x : Word) (n : Nat) : Word := x.rotateLeft n

/-! The hardwired constant words (R21). -/

/-- S[0] = C0. -/
def sigma0 : Word := 0x61707865

/-- S[5] = C1. -/
def sigma1 : Word := 0x3320646e

/-- S[10] = C2. -/
def sigma2 : Word := 0x79622d32

/-- S[15] = C3. -/
def sigma3 : Word := 0x6b206574

/-- The matrix layout of R20 to R24, from the key, nonce and counter words. -/
def matrixOf (key : Vector Word 8) (nonce : Vector Word 2) (lo hi : Word) : WordVec :=
  #v[sigma0, key[0], key[1], key[2],
     key[3], sigma1, nonce[0], nonce[1],
     lo, hi, sigma2, key[4],
     key[5], key[6], key[7], sigma3]

namespace State

/-- The sixteen words S[0..15] as the datapath sees them (R20). Read by GEN_BLOCK alone, while KEYED = 1 (R26, R202). -/
def matrix (s : State) : WordVec := matrixOf s.key s.nonce s.ctrLo s.ctrHi

/-- Positions of the hardwired words (R21). -/
def isConstantPosition (i : Fin 16) : Bool := i == 0 || i == 5 || i == 10 || i == 15

/-- The value S[i] holds, or no value: R35, "A model represents each as 'no value'". A constant always has its value (R21); a
key, nonce or counter word has one exactly while KEYED = 1 (R28). -/
def word? (s : State) (i : Fin 16) : Option Word :=
  if isConstantPosition i || s.keyed then some s.matrix[i] else none

/-- The counter view ctr = S[9] ‖ S[8] (R25). -/
def ctr (s : State) : Position := concatWords s.ctrHi s.ctrLo

/-- ctr <- n: S[8] <- n[31:0]; S[9] <- n[63:32], as one atomic write (R25). -/
def setCtr (s : State) (n : Position) : State :=
  { s with ctrLo := n.extractLsb' 0 32, ctrHi := n.extractLsb' 32 32 }

/-- Load a key and a nonce, with ctr <- 0 and KEYED <- 1 (R146). -/
def load (s : State) (key : Vector Word 8) (nonce : Vector Word 2) : State :=
  { s with key := key, nonce := nonce, ctrLo := 0, ctrHi := 0, keyed := true }

/-- Send the command's one response: all 64 bytes of DOUT, and RSP with KEYED's value after the command (R34, R80, R81). -/
def answer (s : State) (code : Status) (out : Bus) : State :=
  { s with dout := out, rsp := some (responseWord s.keyed code) }

/-- `respond OK` (R14). -/
def respond (s : State) (out : Bus) : State := s.answer .ok out

/-- `raise E` (R14): the response carries E, DOUT is all zero, and no state element the command would have written changes
(R205, R208). -/
def raise (s : State) (e : Status) : State := s.answer e zeroBus

/-- The port accepts a command: DIN is sampled at this moment, and `rest` stays to be presented (R226). -/
def accept (s : State) (din : Bus) (rest : List PortEvent) : State := { s with din := din, pending := rest }

/-- The reset event: every state element takes its reset value, R and INFO keep their construction values (R35, R220); what
the outside will present after it stays to be presented. -/
def resetBlock (s : State) (rest : List PortEvent) : State := { resetFor s.config with pending := rest }

/-- The host presents one more command, before anything already pending (R70). -/
def present (s : State) (cmd : Word) (din : Bus) : State := { s with pending := .command cmd din :: s.pending }

end State

end Sys2Proof.Machine
end

