-- ==== Sys2Proof/Machine/Counter.lean ====
section
/-! DEFINITION. The seekable block counter (spec 42_counter.md): the commands GET_POS and SET_POS. -/

namespace Sys2Proof.Machine

/-- GET_POS (R135): read the block position. -/
def execGetPos (s : State) : Host.Outcome State Fault Refusal :=
  if s.keyed = false then .next (s.raise .notInitialised)
  else .next (s.respond (positionToBus s.ctr))

/-- SET_POS (R137): set the block position; no 64-bit value is refused (R138). -/
def execSetPos (s : State) : Host.Outcome State Fault Refusal :=
  if s.keyed = false then .next (s.raise .notInitialised)
  else .next ((s.setCtr (busPosition s.din)).respond zeroBus)

end Sys2Proof.Machine
end

