-- ==== Sys2Proof/Machine/InitInfo.lean ====
section
/-! DEFINITION. Key loading and identification (spec 43_init_and_info.md): the commands INIT and GET_INFO. -/

namespace Sys2Proof.Machine

/-- INIT (R146): check the lengths (R147), load key and nonce, ctr <- 0, KEYED <- 1. Legal at any time (R148), for every key
and nonce value (R149). -/
def execInit (klen nlen : Fin 256) (s : State) : Host.Outcome State Fault Refusal :=
  if klen.val ≠ keyLen ∨ nlen.val ≠ nonceLen then .next (s.raise .invalidLength)
  else .next ((s.load (busKey s.din) (busNonce s.din)).respond zeroBus)

/-- GET_INFO (R150): read the INFO register, whether KEYED is 0 or 1. -/
def execGetInfo (s : State) : Host.Outcome State Fault Refusal :=
  .next (s.respond (wordToBus (infoWord s.config)))

end Sys2Proof.Machine
end

