-- ==== Sys2Proof/Machine/RoundFunction.lean ====
section
/-! DEFINITION. The round function (spec 40_round_function.md): the quarter-round stage, the column round, the row round, the double
round, the R-fold permutation, and the commands QROUND, DROUND and PERMUTE. -/

namespace Sys2Proof.Machine

/-- One in-place step of the quarter-round stage: v[t] <- v[t] ^ rotl(v[x] + v[y], n) (R100). -/
def mix (v : WordVec) (t x y : Fin 16) (n : Nat) : WordVec := v.set t (v[t] ^^^ rotl (v[x] + v[y]) n)

/-- QR(v, a, b, c, d): four in-place steps, each reading the values the earlier steps wrote (R100); so it stands for aliased
positions too (R109 (c)). A group of four zeros it leaves zero (R107). -/
def quarterRound (v : WordVec) (a b c d : Fin 16) : WordVec :=
  let v := mix v b a d 7
  let v := mix v c b a 9
  let v := mix v d c b 13
  mix v a d c 18

/-- QR_inv(v, a, b, c, d): the four steps backward (R108). No command exposes it. -/
def quarterRoundInv (v : WordVec) (a b c d : Fin 16) : WordVec :=
  let v := mix v a d c 18
  let v := mix v d c b 13
  let v := mix v c b a 9
  mix v b a d 7

/-- QR4(y0, y1, y2, y3): the first four words of QR(v, 0, 1, 2, 3) (R101). -/
def quarterRound4 (y0 y1 y2 y3 : Word) : Vector Word 4 :=
  let v := quarterRound #v[y0, y1, y2, y3, 0, 0, 0, 0, 0, 0, 0, 0, 0, 0, 0, 0] 0 1 2 3
  #v[v[0], v[1], v[2], v[3]]

/-- COLROUND(v) (R102). -/
def columnRound (v : WordVec) : WordVec :=
  let v := quarterRound v 0 4 8 12
  let v := quarterRound v 5 9 13 1
  let v := quarterRound v 10 14 2 6
  quarterRound v 15 3 7 11

/-- ROWROUND(v), the document's "diagonal" pass (R103; 90_conflicts.md C2). -/
def rowRound (v : WordVec) : WordVec :=
  let v := quarterRound v 0 1 2 3
  let v := quarterRound v 5 6 7 4
  let v := quarterRound v 10 11 8 9
  quarterRound v 15 12 13 14

/-- DR(v) = ROWROUND(COLROUND(v)) (R104), so DR(0) = 0 (R107). -/
def doubleRound (v : WordVec) : WordVec := rowRound (columnRound v)

/-- PERM_R(v): exactly R double rounds, no early exit (R106), so PERM_R(0) = 0 for every R (R107). -/
def permuteRounds : Nat → WordVec → WordVec
  | 0, v => v
  | n + 1, v => doubleRound (permuteRounds n v)

/-- QROUND a, b, c, d (R109): one quarter-round on the vector on DIN. -/
def execQround (a b c d : Fin 16) (s : State) : Host.Outcome State Fault Refusal :=
  .next (s.respond (wordsToBus (quarterRound (busWords s.din) a b c d)))

/-- DROUND (R111): one double round on the vector on DIN. -/
def execDround (s : State) : Host.Outcome State Fault Refusal :=
  .next (s.respond (wordsToBus (doubleRound (busWords s.din))))

/-- PERMUTE (R113): the R-fold permutation of the vector on DIN, without feed-forward. -/
def execPermute (s : State) : Host.Outcome State Fault Refusal :=
  .next (s.respond (wordsToBus (permuteRounds s.config.doubleRounds (busWords s.din))))

end Sys2Proof.Machine
end

