-- ==== Sys2Proof/Machine/Keystream.lean ====
section
/-! DEFINITION. Keystream block generation (spec 41_keystream_block.md): the feed-forward, the serializer, the counter sequencer and
the command GEN_BLOCK. -/

namespace Sys2Proof.Machine

/-- z[i] <- x[i] + S0[i], modulo 2^32: the feed-forward (R121). -/
def feedForward (x s0 : WordVec) : WordVec := Vector.ofFn fun i => x[i] + s0[i]

/-- BLOCK(S0) for R double rounds: permute a copy, add S0 back, serialize little-endian (R120, R121). -/
def block (rounds : Nat) (s0 : WordVec) : Bus := wordsToBus (feedForward (permuteRounds rounds s0) s0)

/-- The counter value at which no block can be made, 2^64 - 1 (R124). -/
def exhaustedPosition : Position := 0xFFFFFFFFFFFFFFFF

/-- GEN_BLOCK (R122): the keystream block at the current position, then ctr <- ctr + 1 (R123). -/
def execGenBlock (s : State) : Host.Outcome State Fault Refusal :=
  if s.keyed = false then .next (s.raise .notInitialised)
  else if s.ctr = exhaustedPosition then .next (s.raise .counterExhausted)
  else .next ((s.setCtr (s.ctr + 1)).respond (block s.config.doubleRounds s.matrix))

end Sys2Proof.Machine
end

