-- ==== Sys2Proof/Machine/Dispatch.lean ====
section
/-! DEFINITION. One arm per command (spec 30_encoding.md R74), each one call of the command's meaning. -/

namespace Sys2Proof.Machine

def exec (i : Instr) (s : State) : Host.Outcome State Fault Refusal :=
  match i with
  | .init klen nlen => Sys2Proof.Machine.execInit klen nlen s
  | .setPos => Sys2Proof.Machine.execSetPos s
  | .getPos => Sys2Proof.Machine.execGetPos s
  | .genBlock => Sys2Proof.Machine.execGenBlock s
  | .qround a b c d => Sys2Proof.Machine.execQround a b c d s
  | .dround => Sys2Proof.Machine.execDround s
  | .permute => Sys2Proof.Machine.execPermute s
  | .getInfo => Sys2Proof.Machine.execGetInfo s

end Sys2Proof.Machine
end

