-- ==== Sys2Proof/Machine/Port.lean ====
section
/-! DEFINITION. The command port (spec 30_encoding.md R70, R78, R81; 60_exceptions.md R204, R207; 70_reset_and_hazards.md R220 to R222):
what one step does with the next event the outside presents. -/

namespace Sys2Proof.Machine

/-- Run an accepted command word: the decoded command, or ILLEGAL_COMMAND, "decided from CMD alone before anything else"
(R204, R207). -/
def runCommand (cmd : Word) (s : State) : Host.Outcome State Fault Refusal :=
  match decode cmd with
  | .ok i => exec i s
  | .error _ => .next (s.raise .illegalCommand)

/-- Serve the next pending event, `rest` following it. A command cut by reset has no effect and no response (R221). -/
def serve (e : PortEvent) (rest : List PortEvent) (s : State) : Host.Outcome State Fault Refusal :=
  match e with
  | .command cmd din => runCommand cmd (s.accept din rest)
  | .reset => .next (s.resetBlock rest)
  | .commandCutByReset _ _ => .next (s.resetBlock rest)

/-- Nothing is pending: the block is idle and waits (R222; log 3). -/
def idle (s : State) : Host.Outcome State Fault Refusal := .next s

/-- Present a table word as the very next command, with the DIN bytes the port shows (log 15). -/
def presentTableWord (s : State) (nbits w : Nat) : State := s.present (tableWord nbits w) s.din

end Sys2Proof.Machine
end

