-- ==== Sys2Proof/Machine/Step.lean ====
section
/-! DEFINITION. One step: the next pending port event is served, or the block waits (spec 10_state.md R32; 20_memory.md R57, R61). -/

namespace Sys2Proof.Machine

/-- One atomic transition (R57). -/
def step (s : State) : Host.Outcome State Fault Refusal :=
  match s.pending with
  | [] => idle s
  | e :: rest => serve e rest s

/-- s with the table word presented as its next command (R32: the block fetches nothing, the host presents; log 3, log 15). -/
def State.withFetchWord (s : State) (nbits w : Nat) : State := presentTableWord s nbits w

end Sys2Proof.Machine
end

