-- ==== Sys2Proof/WellFormed.lean ====
section
/-! DEFINITION. Which assembler lines have an encoding (spec 30_encoding.md R85): "A line with an operand outside its field's
range has no encoding, and the assembler refuses it." Every term of `Instr` is well formed by its type: each operand field
admits exactly the values of its type (R72). -/

namespace Sys2Proof

/-- A `.din` operand has the size the directive names: 32 key bytes and 8 nonce bytes, a u64, 16 words (R85). -/
def DinDirective.wellFormed : DinDirective → Bool
  | .keyNonce key nonce => key.length == keyLen && nonce.length == nonceLen
  | .pos n => decide (n < 2 ^ 64)
  | .words ws => ws.length == 16

/-- A position operand is 0..15 (R72, format Q; R85). -/
def positionInRange (a : Nat) : Bool := decide (a < 16)

/-- A length operand is 0..255 (R72, format L; R85). -/
def lengthInRange (n : Nat) : Bool := decide (n < 256)

/-- The line's operands fit their fields (R85, R86). -/
def AsmLine.wellFormed : AsmLine → Bool
  | .din d => d.wellFormed
  | .init klen nlen => lengthInRange (klen.getD keyLen) && lengthInRange (nlen.getD nonceLen)
  | .qround a b c d | .qr a b c d =>
    positionInRange a && positionInRange b && positionInRange c && positionInRange d
  | .new key nonce => (DinDirective.keyNonce key nonce).wellFormed
  | .seek n => (DinDirective.pos n).wellFormed
  | .setPos | .getPos | .genBlock | .dround | .permute | .getInfo | .rewind => true

end Sys2Proof
end

