-- ==== Sys2Proof/Machine/Assembler.lean ====
section
/-! DEFINITION. The assembler (spec 30_encoding.md R85, R86): the command stream that a list of lines stands for. -/

namespace Sys2Proof.Machine

/-- The DIN bytes a `.din` directive gives; "Omitted DIN bytes are zero" (R85). -/
def directiveBus : DinDirective → Bus
  | .keyNonce key nonce => Vector.ofFn fun k => (key ++ nonce).getD k.val 0
  | .pos n => positionToBus (BitVec.ofNat 64 n)
  | .words ws => wordsToBus (Vector.ofFn fun i => ws.getD i.val 0)

/-- The expansion of a pseudo-command (R86); any other line stands for itself. -/
def expandLine : AsmLine → List AsmLine
  | .new key nonce => [.din (.keyNonce key nonce), .init (some keyLen) (some nonceLen)]
  | .seek n => [.din (.pos n), .setPos]
  | .rewind => [.din (.pos 0), .setPos]
  | .qr a b c d => [.qround a b c d]
  | line => [line]

/-- The command of a line that is one; its operands are in range by `AsmLine.wellFormed` (R85). -/
def lineCommand : AsmLine → Option Instr
  | .init klen nlen => some (.init (Fin.ofNat 256 (klen.getD keyLen)) (Fin.ofNat 256 (nlen.getD nonceLen)))
  | .setPos => some .setPos
  | .getPos => some .getPos
  | .genBlock => some .genBlock
  | .qround a b c d => some (.qround (Fin.ofNat 16 a) (Fin.ofNat 16 b) (Fin.ofNat 16 c) (Fin.ofNat 16 d))
  | .dround => some .dround
  | .permute => some .permute
  | .getInfo => some .getInfo
  | .din _ | .new _ _ | .seek _ | .rewind | .qr _ _ _ _ => none

/-- The commands of expanded lines; `din` is what the line before gives, all zero when it is no directive (R85). -/
def commandsOf (din : Bus) : List AsmLine → List PortEvent
  | [] => []
  | line :: rest =>
    match line, lineCommand line with
    | .din d, _ => commandsOf (directiveBus d) rest
    | _, some i => .command (encode i) din :: commandsOf zeroBus rest
    | _, none => commandsOf zeroBus rest

/-- The assembler: refuses a program with a line that has no encoding (R85), else gives its command stream. -/
def assemble (lines : List AsmLine) : Option (List PortEvent) :=
  if lines.all AsmLine.wellFormed then some (commandsOf zeroBus (lines.flatMap expandLine)) else none

end Sys2Proof.Machine
end

