-- ==== Sys2Proof/Machine/Memory.lean ====
section
/-! DEFINITION. The host's byte-addressed memory (spec 45_host_orchestrator.md R160). The block itself has no memory (20_memory.md R50).

A memory is a list of (address, byte) cells in one canonical form: addresses strictly rising, no entry equal to what an
unlisted address reads as. -/

namespace Sys2Proof.Machine

/-- The host's memory, sparse (R160). -/
abbrev Memory := List Host.Cell

namespace Memory

/-- What an address with no cell reads as (DESIGN CHOICE, log 12: R160 gives the host's memory no initial content). -/
def unlisted : Byte := 0

/-- The canonical form. -/
abbrev WF (m : Memory) : Prop := m.Pairwise (fun c d => c.1 < d.1) ∧ ∀ c ∈ m, c.2 ≠ unlisted

/-- MemRead(addr, 1) (R160). -/
def read : Memory → Nat → Byte
  | [], _ => unlisted
  | (k, b) :: m, addr => if addr = k then b else read m addr

/-- The cells of one address holding `v`: none when an unlisted address reads as `v`. -/
def cell (addr : Nat) (v : Byte) : Memory := if v = unlisted then [] else [(addr, v)]

/-- MemWrite(addr, 1, v) (R160). -/
def write : Memory → Nat → Byte → Memory
  | [], addr, v => cell addr v
  | (k, b) :: m, addr, v =>
    if addr < k then cell addr v ++ (k, b) :: m
    else if addr = k then cell addr v ++ m
    else (k, b) :: write m addr v

end Memory

end Sys2Proof.Machine
end

