-- ==== Sys2Proof/Machine/Orchestrator.lean ====
section
/-! DEFINITION. The host agent: the Cipher Orchestrator, the host's reference program (spec 45_host_orchestrator.md; 00_scope.md R5). It
is no part of the block. It holds its own state beside the block's and moves the block only by presenting commands to `step`
(log 11). -/

namespace Sys2Proof.Machine

/-- The host's state for one cipher instance (R160, R161), beside the block it owns exclusively (R172). -/
structure Orchestrator where
  block : State
  /-- The caller's buffers (R160). -/
  mem : Memory
  /-- HBUF, a copy of the last keystream block received (R161). -/
  hbuf : Bus
  /-- CUR, the count of bytes of HBUF already used; 0 is "aligned", 1..63 is "mid-block" (R161). -/
  cur : Fin 64
  /-- The CounterExhausted condition of R167: `some p` from a call that failed at block position p, until a seek below p or a
  successful `new` (DESIGN CHOICE, log 17). -/
  exhaustedAt : Option Position
  deriving DecidableEq, Repr

/-- How a host operation ends (R167). -/
inductive HostResult where
  | ok
  | invalidLength
  | counterExhausted
  /-- "A block response with any other code is a host defect" (R167). -/
  | defect
  deriving DecidableEq, Repr

namespace Orchestrator

/-- A host beside a block, before any instance is built (log 14). -/
def start (block : State) (mem : Memory) : Orchestrator := ⟨block, mem, zeroBus, 0, none⟩

/-- Issue one block command and take its response (R172). A step never stops (R81), so the last case does not arise. DESIGN
CHOICE (log 18): no reset falls between a host's command and its response, so every command gets one. -/
def command (o : Orchestrator) (i : Instr) (din : Bus) : Orchestrator :=
  match step (o.block.present (encode i) din) with
  | .next t => { o with block := t }
  | .fault r => nomatch r
  | .refused _ => o

/-- RSP.CODE of the response just taken. -/
def code (o : Orchestrator) : Option (BitVec 4) := o.block.rsp.map rspCode

/-- The response just taken carries this status. -/
def answered (o : Orchestrator) (c : Status) : Bool := o.code == some (statusCode c)

/-- DIN for `new`: key and nonce when both lengths are right, else whatever it holds (R162; log 14). -/
def newDin (key nonce : List Byte) : Bus :=
  if key.length = keyLen ∧ nonce.length = nonceLen then Vector.ofFn fun k => (key ++ nonce).getD k.val 0 else zeroBus

/-- `new(key, nonce)` (R162): lengths the command field cannot carry are refused without a command. A new instance ends the
CounterExhausted condition (R167). -/
def new (o : Orchestrator) (key nonce : List Byte) : Orchestrator × HostResult :=
  if key.length > 255 ∨ nonce.length > 255 then (o, .invalidLength)
  else
    let o := o.command (.init (Fin.ofNat 256 key.length) (Fin.ofNat 256 nonce.length)) (newDin key nonce)
    if o.answered .ok then ({ o with cur := 0, exhaustedAt := none }, .ok)
    else if o.answered .invalidLength then (o, .invalidLength)
    else (o, .defect)

/-- `get_block_position()`: the GET_POS command (R166). -/
def getBlockPosition (o : Orchestrator) : Orchestrator × HostResult :=
  let o := o.command .getPos zeroBus
  (o, if o.answered .ok then .ok else .defect)

/-- Bytes of HBUF still unused (R163, `avail`). -/
def available (o : Orchestrator) : Nat := if o.cur = 0 then 0 else 64 - o.cur.val

/-- New blocks a call of L bytes needs (R163, `need`). -/
def blocksNeeded (o : Orchestrator) (len : Nat) : Nat :=
  if len ≤ o.available then 0 else (len - o.available + 63) / 64

/-- apply_keystream's check in advance: read the position, and fail with CounterExhausted when fewer than `need` blocks
remain (R163), or while the condition of an earlier failure holds: "every later call that needs a new block fails the same
way" (R167). DESIGN CHOICE (log 17): R163's check alone remembers nothing and would let a later, shorter call succeed; the
model follows R167. -/
def checkBlocks (o : Orchestrator) (need : Nat) : Orchestrator × HostResult :=
  if need = 0 then (o, .ok)
  else
    let o := o.command .getPos zeroBus
    if o.answered .ok = false then (o, .defect)
    else if o.exhaustedAt ≠ none ∨ need > (2 ^ 64 - 1) - (busPosition o.block.dout).toNat then
      ({ o with exhaustedAt := some (busPosition o.block.dout) }, .counterExhausted)
    else (o, .ok)

/-- When aligned, take the next keystream block into HBUF (R163). -/
def fill (o : Orchestrator) : Orchestrator × HostResult :=
  if o.cur = 0 then
    let o := o.command .genBlock zeroBus
    if o.answered .ok then ({ o with hbuf := o.block.dout }, .ok) else (o, .defect)
  else (o, .ok)

/-- One byte of the buffer: xor it with HBUF[CUR], CUR <- (CUR + 1) mod 64 (R163). -/
def xorByte (o : Orchestrator) (addr : Nat) : Orchestrator :=
  { o with mem := o.mem.write addr (o.mem.read addr ^^^ o.hbuf[o.cur]), cur := o.cur + 1 }

/-- apply_keystream's loop over the buffer (R163). -/
def applyBytes (o : Orchestrator) (addr : Nat) : Nat → Orchestrator × HostResult
  | 0 => (o, .ok)
  | n + 1 =>
    match o.fill with
    | (o, .ok) => applyBytes (o.xorByte addr) (addr + 1) n
    | (o, r) => (o, r)

/-- `apply_keystream(buf, L)` (R163). -/
def applyKeystream (o : Orchestrator) (buf len : Nat) : Orchestrator × HostResult :=
  match o.checkBlocks (o.blocksNeeded len) with
  | (o, .ok) => o.applyBytes buf len
  | (o, r) => (o, r)

/-- `apply_keystream` over a buffer split into chunks, one call after another (R170). -/
def applyChunks (o : Orchestrator) (buf : Nat) : List Nat → Orchestrator × HostResult
  | [] => (o, .ok)
  | len :: lens =>
    match o.applyKeystream buf len with
    | (o, .ok) => applyChunks o (buf + len) lens
    | (o, r) => (o, r)

/-- The CounterExhausted condition after a seek to block n: a seek to a lower position than the failing call's ends it (R167,
log 17). -/
def exhaustedAfterSeek (o : Orchestrator) (n : Position) : Option Position := o.exhaustedAt.filter fun p => decide (p ≤ n)

/-- `seek(n)`: go to block n (R164). -/
def seek (o : Orchestrator) (n : Position) : Orchestrator × HostResult :=
  let o := o.command .setPos (positionToBus n)
  if o.answered .ok then ({ o with cur := 0, exhaustedAt := o.exhaustedAfterSeek n }, .ok) else (o, .defect)

/-- Discard `len` keystream bytes by applying them to a scratch buffer whose contents are discarded (R165). The scratch
buffer is the host's own, apart from the caller's buffers (log 13), and the discard is part of the seek: it is no "later call"
of R167, and neither ends nor begins the CounterExhausted condition (log 17). -/
def discard (o : Orchestrator) (len : Nat) : Orchestrator × HostResult :=
  let r := applyKeystream { o with mem := [], exhaustedAt := none } 0 len
  ({ r.1 with mem := o.mem, exhaustedAt := o.exhaustedAt }, r.2)

/-- `seek_bytes(q)`: go to byte q of the keystream (R165). -/
def seekBytes (o : Orchestrator) (q : Position) : Orchestrator × HostResult :=
  match o.seek (q / 64) with
  | (o, .ok) => if q.toNat % 64 ≠ 0 then o.discard (q.toNat % 64) else (o, .ok)
  | (o, r) => (o, r)

/-- The platform resets the block under the host (R220, R224): the host's HBUF, CUR and its CounterExhausted condition are not
touched. DESIGN CHOICE (log 18): the reset falls between two host operations; the spec does not say what a host does when it
falls inside one, between two of its commands or cutting one so that no response comes (R221). -/
def platformReset (o : Orchestrator) : Orchestrator :=
  match step { o.block with pending := .reset :: o.block.pending } with
  | .next t => { o with block := t }
  | .fault r => nomatch r
  | .refused _ => o

/-- The state matrix of this instance with ctr = n (R169, "S with ctr = m div 64"). -/
def matrixAt (o : Orchestrator) (n : Nat) : WordVec := (o.block.setCtr (BitVec.ofNat 64 n)).matrix

/-- The keystream byte function KS(key, nonce, m) = BLOCK(S with ctr = m div 64)[m mod 64] of this instance (R169). -/
def keystreamByte (o : Orchestrator) (m : Nat) : Byte :=
  (Sys2Proof.Machine.block o.block.config.doubleRounds (o.matrixAt (m / 64)))[m % 64]'(Nat.mod_lt _ (by decide))

/-- The instance stands at keystream byte q (R161, R165, R169): aligned with ctr = q div 64, or mid-block with CUR = q mod 64,
HBUF the block at q div 64 and ctr one past it. -/
def AtByte (o : Orchestrator) (q : Nat) : Prop :=
  o.block.keyed = true ∧ o.cur.val = q % 64 ∧
  (q % 64 = 0 → o.block.ctr.toNat = q / 64) ∧
  (q % 64 ≠ 0 → o.block.ctr.toNat = q / 64 + 1 ∧
    o.hbuf = Sys2Proof.Machine.block o.block.config.doubleRounds (o.matrixAt (q / 64)))

end Orchestrator

end Sys2Proof.Machine
end

