-- ==== Sys2Proof/Safety.lean ====
section
/-! DEFINITION. What a safe run is, in the terms the statements use: a step that answers, the invariant of the state and its port, and
the two ways in which states agree. -/

namespace Sys2Proof.Machine

/-- The step does not stop. Every step is to have this (spec 70_reset_and_hazards.md R233). -/
def StepsOn (s : State) : Prop := ∃ t, step s = .next t

/-- The invariant: R is legal (R8); before any response since reset, KEYED = 0 and DOUT is zero (R35, R221); and the last
response word has the format of R80, shows KEYED as it is (R28), and stands beside a zero DOUT when it is an error (R205). -/
structure State.Inv (s : State) : Prop where
  legalRounds : s.config.Legal
  silent : s.rsp = none → s.keyed = false ∧ s.dout = zeroBus
  answered : ∀ w, s.rsp = some w → ∃ code, w = responseWord s.keyed code ∧ (code ≠ .ok → s.dout = zeroBus)

/-- S, KEYED and ctr have the same values in `s` and `t` (R205), and so have R and INFO. -/
structure SameBlock (s t : State) : Prop where
  config : t.config = s.config
  key : t.key = s.key
  nonce : t.nonce = s.nonce
  ctrLo : t.ctrLo = s.ctrLo
  ctrHi : t.ctrHi = s.ctrHi
  keyed : t.keyed = s.keyed

/-- `t` is `s` after answering a command with the error `code` (R205): S, KEYED and ctr unchanged, DOUT 64 zero bytes, RSP the
word of R80 with the unchanged KEYED and the error's code; the port's DIN sample and pending events unchanged too. -/
structure AnswersError (s t : State) (code : BitVec 4) : Prop where
  block : SameBlock s t
  dout : ∀ k (_ : k < 64), t.dout[k] = 0
  rsp : t.rsp = some (0#27 ++ BitVec.ofBool s.keyed ++ code)
  din : t.din = s.din
  pending : t.pending = s.pending

/-- Presented as a command, the word is answered ILLEGAL_COMMAND (R204): code 4. -/
def AnsweredIllegal (cmd : Word) : Prop :=
  ∀ (s : State) (din : Bus) (rest : List PortEvent), s.pending = .command cmd din :: rest →
    ∃ t, step s = .next t ∧ AnswersError { s with din := din, pending := rest } t 4

/-- `s` and `t` agree in everything that has a value: a key, nonce or counter word that holds no value is not compared (R35,
`State.word?`). -/
structure SameValues (s t : State) : Prop where
  config : t.config = s.config
  keyed : t.keyed = s.keyed
  words : ∀ i, t.word? i = s.word? i
  dout : t.dout = s.dout
  din : t.din = s.din
  rsp : t.rsp = s.rsp
  pending : t.pending = s.pending

/-- `s` and `t` agree in everything but DIN. -/
def SameButDin (s t : State) : Prop := t = { s with din := t.din }

/-- The DIN bytes a command reads (R84): the first `dinBytesRead` of them. INIT reads none when it fails its length check
(R146). -/
def dinBytesRead : Instr → Nat
  | .init klen nlen => if klen.val = keyLen ∧ nlen.val = nonceLen then 40 else 0
  | .setPos => 8
  | .qround _ _ _ _ | .dround | .permute => 64
  | .getPos | .genBlock | .getInfo => 0

end Sys2Proof.Machine
end

