-- ==== Sys2Proof/Certificates/Slice0/Obligations.lean ====
section
/-! DEFINITION. The statements about the model. Each is a proposition and nothing here is proved. R<n> are the rules of spec/; a command
word is written with the bits of 30_encoding.md R72. The block has no memory (R50), so a frame of a command speaks of S, KEYED, R,
DOUT and the port; the host's memory is framed in the statements about the host. -/

open Sys2Proof Sys2Proof.Machine

/-! ## Encoding -/

/-- Decode and encode agree on every command, with every operand at every value its field admits (R72, R74, R78). -/
def Obligations.DecodeOfEncodeIsTheCommand : Prop :=
  ∀ i : Instr, decode (encode i) = .ok i

/-- Each legal word has one meaning: a word that decodes to a command is that command's encoding (R72, R76, R78). -/
def Obligations.EncodeOfDecodeIsTheWord : Prop :=
  ∀ (w : Word) (i : Instr), decode w = .ok i → encode i = w

/-- R77: a word is a legal command exactly when OPC is in 0x1..0x8 and the reserved field of OPC's format is zero; 2^16 words are INIT,
2^16 are QROUND, one word is each of the other six commands, and 2^16 + 2^16 + 6 words are legal. -/
def Obligations.LegalCommandWordsAndTheirNumber : Prop :=
  (∀ w : Word, (∃ i, decode w = .ok i) ↔
    1 ≤ (w.extractLsb' 0 4).toNat ∧ (w.extractLsb' 0 4).toNat ≤ 8 ∧
    ((w.extractLsb' 0 4 = 0x1 ∨ w.extractLsb' 0 4 = 0x5) → w.extractLsb' 20 12 = 0) ∧
    (w.extractLsb' 0 4 ≠ 0x1 → w.extractLsb' 0 4 ≠ 0x5 → w.extractLsb' 4 28 = 0)) ∧
  (∃ inits : List Word, inits.Nodup ∧ inits.length = 2 ^ 16 ∧ ∀ w, w ∈ inits ↔ ∃ klen nlen, decode w = .ok (.init klen nlen)) ∧
  (∃ qrounds : List Word, qrounds.Nodup ∧ qrounds.length = 2 ^ 16 ∧ ∀ w, w ∈ qrounds ↔ ∃ a b c d, decode w = .ok (.qround a b c d)) ∧
  (∀ i ∈ [Instr.setPos, .getPos, .genBlock, .dround, .permute, .getInfo], ∃ w, decode w = .ok i ∧ ∀ w', decode w' = .ok i → w' = w) ∧
  ∃ legal : List Word, legal.Nodup ∧ legal.length = 2 ^ 16 + 2 ^ 16 + 6 ∧ ∀ w, w ∈ legal ↔ ∃ i, decode w = .ok i

/-- R78: the decoder, case by case on OPC = CMD[3:0]. -/
def Obligations.DecoderFollowsItsFieldTable : Prop :=
  ∀ w : Word,
    (w.extractLsb' 0 4 = 0x1 → w.extractLsb' 20 12 ≠ 0 → ∃ e, decode w = .error e) ∧
    (w.extractLsb' 0 4 = 0x1 → w.extractLsb' 20 12 = 0 → ∃ klen nlen, decode w = .ok (.init klen nlen) ∧
      klen.val = (w.extractLsb' 4 8).toNat ∧ nlen.val = (w.extractLsb' 12 8).toNat) ∧
    (w.extractLsb' 0 4 = 0x5 → w.extractLsb' 20 12 ≠ 0 → ∃ e, decode w = .error e) ∧
    (w.extractLsb' 0 4 = 0x5 → w.extractLsb' 20 12 = 0 → ∃ a b c d, decode w = .ok (.qround a b c d) ∧
      a.val = (w.extractLsb' 4 4).toNat ∧ b.val = (w.extractLsb' 8 4).toNat ∧
      c.val = (w.extractLsb' 12 4).toNat ∧ d.val = (w.extractLsb' 16 4).toNat) ∧
    (∀ p ∈ [(0x2#4, Instr.setPos), (0x3#4, .getPos), (0x4#4, .genBlock), (0x6#4, .dround), (0x7#4, .permute),
        (0x8#4, .getInfo)], w.extractLsb' 0 4 = p.1 →
      (w.extractLsb' 4 28 ≠ 0 → ∃ e, decode w = .error e) ∧ (w.extractLsb' 4 28 = 0 → decode w = .ok p.2)) ∧
    (w.extractLsb' 0 4 = 0 ∨ 9 ≤ (w.extractLsb' 0 4).toNat → ∃ e, decode w = .error e)

/-- R88: the canonical command words, read and written; and INIT klen=16, nlen=8 fails INVALID_LENGTH. -/
def Obligations.CanonicalCommandWords : Prop :=
  (∀ p ∈ [((0x00008201 : Word), Instr.init 32 8), (0x00008101, .init 16 8), (0x00000002, .setPos), (0x00000003, .getPos),
      (0x00000004, .genBlock), (0x000C8405, .qround 0 4 8 12), (0x0001D955, .qround 5 9 13 1),
      (0x00062EA5, .qround 10 14 2 6), (0x000B73F5, .qround 15 3 7 11), (0x00032105, .qround 0 1 2 3),
      (0x00047655, .qround 5 6 7 4), (0x00098BA5, .qround 10 11 8 9), (0x000EDCF5, .qround 15 12 13 14),
      (0x00000006, .dround), (0x00000007, .permute), (0x00000008, .getInfo)],
    decode p.1 = .ok p.2 ∧ encode p.2 = p.1) ∧
  ∀ s : State, ∃ t, exec (.init 16 8) s = .next t ∧ AnswersError s t 1

/-- R75, R76, R204: a word with a reserved opcode, or with a reserved field that is not zero, is answered ILLEGAL_COMMAND in
every state and changes no state. -/
def Obligations.ReservedWordsAreAnsweredIllegal : Prop :=
  ∀ w : Word,
    (w.extractLsb' 0 4 = 0 ∨ 9 ≤ (w.extractLsb' 0 4).toNat ∨
      ((w.extractLsb' 0 4 = 0x1 ∨ w.extractLsb' 0 4 = 0x5) ∧ w.extractLsb' 20 12 ≠ 0) ∨
      (w.extractLsb' 0 4 ≠ 0x1 ∧ w.extractLsb' 0 4 ≠ 0x5 ∧ w.extractLsb' 4 28 ≠ 0)) →
    AnsweredIllegal w

/-- R85, R86: the pseudo-commands' expansions, an omitted length is the default, the `.din` line gives the next command's bytes and
omitted bytes are zero, and a line with an operand outside its field's range is refused. The lines are abstract syntax (log 16). -/
def Obligations.AssemblerExpandsAndRefuses : Prop :=
  (∀ key nonce : List Byte, key.length = 32 → nonce.length = 8 →
    assemble [.new key nonce] = assemble [.din (.keyNonce key nonce), .init none none] ∧
    ∃ din : Bus, assemble [.new key nonce] = some [.command 0x00008201 din] ∧
      (∀ k (h : k < 32), din[k] = key.getD k 0) ∧ (∀ k (h : k < 8), din[32 + k] = nonce.getD k 0) ∧
      (∀ k (h : k < 64), 40 ≤ k → din[k] = 0)) ∧
  (∀ n : Nat, n < 2 ^ 64 → ∃ din : Bus, assemble [.seek n] = some [.command 0x00000002 din] ∧
      busPosition din = BitVec.ofNat 64 n ∧ ∀ k (h : k < 64), 8 ≤ k → din[k] = 0) ∧
  (assemble [.rewind] = assemble [.seek 0]) ∧
  (∀ a b c d : Nat, assemble [.qr a b c d] = assemble [.qround a b c d]) ∧
  (∀ (klen nlen : Nat) (lines : List AsmLine), 255 < klen ∨ 255 < nlen → AsmLine.init (some klen) (some nlen) ∈ lines →
    assemble lines = none) ∧
  (∀ (a b c d : Nat) (lines : List AsmLine), 15 < a ∨ 15 < b ∨ 15 < c ∨ 15 < d → AsmLine.qround a b c d ∈ lines →
    assemble lines = none)

/-! ## The step and the port -/

/-- When the next pending event is a command whose word decodes to i, the step is exec of i at the state that has taken the event
and sampled its DIN bytes (R57, R70, R226). -/
def Obligations.StepRunsTheDecodedCommand : Prop :=
  ∀ (s : State) (cmd : Word) (din : Bus) (rest : List PortEvent) (i : Instr),
    s.pending = .command cmd din :: rest → decode cmd = .ok i →
    step s = exec i { s with din := din, pending := rest }

/-- With nothing pending the block is idle and waits (R222; the model's choice of a step that changes nothing, log 3). -/
def Obligations.IdleBlockWaits : Prop :=
  ∀ s : State, s.pending = [] → step s = .next s

/-- R220: the reset event puts every state element at its reset value, in every state, and it is the only event that clears
KEYED. -/
def Obligations.ResetEventRestoresTheResetState : Prop :=
  (∀ (s : State) (rest : List PortEvent), s.pending = .reset :: rest →
    ∃ t, step s = .next t ∧ t.keyed = false ∧ (∀ k (h : k < 64), t.dout[k] = 0) ∧
      t.word? 0 = some 0x61707865 ∧ t.word? 5 = some 0x3320646e ∧ t.word? 10 = some 0x79622d32 ∧
      t.word? 15 = some 0x6b206574 ∧ (∀ i ∈ [1, 2, 3, 4, 6, 7, 8, 9, 11, 12, 13, 14], t.word? i = none) ∧
      t.config = s.config ∧ t.pending = rest) ∧
  (∀ s t : State, step s = .next t → s.keyed = true → t.keyed = false →
    ∃ rest, s.pending = .reset :: rest ∨ ∃ cmd din, s.pending = .commandCutByReset cmd din :: rest)

/-- R35: the reset values of an instance with parameters c, "no value" among them; and no step reads a word that holds no value:
states that agree in every value, KEYED = 0, step to states that agree in every value. -/
def Obligations.ResetValuesAndNoReadOfAWordWithoutValue : Prop :=
  (∀ c : Config,
    (State.resetFor c).word? 0 = some 0x61707865 ∧ (State.resetFor c).word? 5 = some 0x3320646e ∧
    (State.resetFor c).word? 10 = some 0x79622d32 ∧ (State.resetFor c).word? 15 = some 0x6b206574 ∧
    (∀ i ∈ [1, 2, 3, 4, 6, 7, 8, 9, 11, 12, 13, 14], (State.resetFor c).word? i = none) ∧
    (State.resetFor c).keyed = false ∧ (∀ k (h : k < 64), (State.resetFor c).dout[k] = 0) ∧
    (State.resetFor c).config = c) ∧
  (∀ s t s' : State, s.keyed = false → SameValues s t → step s = .next s' → ∃ t', step t = .next t' ∧ SameValues s' t')

/-- R221 over the model's reset state: a command cut by reset has no effect and gets no response. The next state is
`State.resetFor` whole, so the clause also holds what the model chose: zero bits under the words without a value (log 1), DIN zero
(log 4) and reset as an event of the port that keeps the later events (log 6). -/
def Obligations.CommandCutByResetHasNoEffect : Prop :=
  ∀ (s : State) (cmd : Word) (din : Bus) (rest : List PortEvent), s.pending = .commandCutByReset cmd din :: rest →
    step s = step { s with pending := .reset :: rest } ∧
    step s = .next { State.resetFor s.config with pending := rest } ∧ (State.resetFor s.config).rsp = none

/-- R81: every accepted command, an illegal one too, is answered by its own step, and no other step produces a response. -/
def Obligations.EveryCommandIsAnsweredByItsStep : Prop :=
  (∀ (s : State) (cmd : Word) (din : Bus) (rest : List PortEvent), s.pending = .command cmd din :: rest →
    ∃ t w, step s = .next t ∧ t.pending = rest ∧ t.rsp = some w) ∧
  (∀ s t : State, (∀ cmd din rest, s.pending ≠ .command cmd din :: rest) → step s = .next t → t = s ∨ t.rsp = none)

/-- No run stops: from every state, every number of steps ends in a next state (R204, R208, R233). -/
def Obligations.NoRunStops : Prop :=
  (∀ s : State, StepsOn s) ∧ ∀ (k : Nat) (s : State), ∃ t : State, Host.Core.run Sys2Proof.core k s = .next t

/-- R80: the format of every response word, and the numbering of the codes. -/
def Obligations.ResponseWordHasItsFormat : Prop :=
  (statusCode .ok = 0 ∧ statusCode .invalidLength = 1 ∧ statusCode .counterExhausted = 2 ∧ statusCode .notInitialised = 3 ∧
    statusCode .illegalCommand = 4) ∧
  ∀ (s t : State) (cmd : Word) (din : Bus) (rest : List PortEvent),
    s.pending = .command cmd din :: rest → step s = .next t →
    ∃ w code, t.rsp = some w ∧ w.extractLsb' 5 27 = 0 ∧ w.getLsbD 4 = t.keyed ∧ w.extractLsb' 0 4 = statusCode code ∧
      (w.extractLsb' 0 4).toNat ≤ 4

/-- R200 to R204 and R207: which status code a command gets. The conditions are the causes of R200 in the order of R207, so that
the first that holds decides. -/
def Obligations.StatusCodesHaveTheirCauses : Prop :=
  ∀ (s t : State) (cmd : Word) (din : Bus) (rest : List PortEvent) (w : Word),
    s.pending = .command cmd din :: rest → step s = .next t → t.rsp = some w →
    ((∀ i, decode cmd ≠ .ok i) → w.extractLsb' 0 4 = 4) ∧
    (∀ klen nlen, decode cmd = .ok (.init klen nlen) → klen.val ≠ 32 ∨ nlen.val ≠ 8 → w.extractLsb' 0 4 = 1) ∧
    (∀ i, decode cmd = .ok i → i = .genBlock ∨ i = .getPos ∨ i = .setPos → s.keyed = false → w.extractLsb' 0 4 = 3) ∧
    (decode cmd = .ok .genBlock → s.keyed = true → s.ctr = 0xFFFFFFFFFFFFFFFF → w.extractLsb' 0 4 = 2) ∧
    (w.extractLsb' 0 4 ≠ 0 →
      (∀ i, decode cmd ≠ .ok i) ∨
      (∃ klen nlen, decode cmd = .ok (.init klen nlen) ∧ (klen.val ≠ 32 ∨ nlen.val ≠ 8)) ∨
      (∃ i, decode cmd = .ok i ∧ (i = .genBlock ∨ i = .getPos ∨ i = .setPos) ∧ s.keyed = false) ∨
      (decode cmd = .ok .genBlock ∧ s.keyed = true ∧ s.ctr = 0xFFFFFFFFFFFFFFFF))

/-- R205: a failing command changes no block state, reports the unchanged KEYED and sets DOUT to 64 zero bytes. -/
def Obligations.FailingCommandChangesNoBlockState : Prop :=
  ∀ (s t : State) (cmd : Word) (din : Bus) (rest : List PortEvent) (w : Word),
    s.pending = .command cmd din :: rest → step s = .next t → t.rsp = some w → w.extractLsb' 0 4 ≠ 0 →
    AnswersError { s with din := din, pending := rest } t (w.extractLsb' 0 4)

/-- Every step keeps the invariant: R legal, a silent port only in the reset state, and a last response that has the format of
R80, shows KEYED as it is, and stands beside a zero DOUT when it is an error. -/
def Obligations.EveryStepKeepsTheInvariant : Prop :=
  ∀ s t : State, s.Inv → step s = .next t → t.Inv

/-- The invariant holds after reset of every legal instance (R8, R35), and of the model's standard one (log 2). -/
def Obligations.InvariantHoldsAfterReset : Prop :=
  (∀ c : Config, c.Legal → (State.resetFor c).Inv) ∧ State.reset.Inv

/-! ## The commands -/

/-- R146, R148: INIT. With klen = 32 and nlen = 8 it completes in every state, keyed or not: the key words, the nonce words, ctr and
KEYED take their values, DOUT is zero, and nothing else changes. With other lengths it raises INVALID_LENGTH. -/
def Obligations.InitLoadsKeyAndNonce : Prop :=
  (∀ s : State, ∃ t, exec (.init 32 8) s = .next t ∧
    (∀ i (h : i < 4), t.word? ⟨1 + i, by omega⟩ =
      some (le32 s.din[4 * i] s.din[4 * i + 1] s.din[4 * i + 2] s.din[4 * i + 3])) ∧
    (∀ i (h : i < 4), t.word? ⟨11 + i, by omega⟩ =
      some (le32 s.din[16 + 4 * i] s.din[17 + 4 * i] s.din[18 + 4 * i] s.din[19 + 4 * i])) ∧
    t.word? 6 = some (le32 s.din[32] s.din[33] s.din[34] s.din[35]) ∧
    t.word? 7 = some (le32 s.din[36] s.din[37] s.din[38] s.din[39]) ∧
    t.word? 8 = some 0 ∧ t.word? 9 = some 0 ∧
    t.word? 0 = s.word? 0 ∧ t.word? 5 = s.word? 5 ∧ t.word? 10 = s.word? 10 ∧ t.word? 15 = s.word? 15 ∧
    t.keyed = true ∧ (∀ k (h : k < 64), t.dout[k] = 0) ∧ t.rsp = some 0x10 ∧
    t.config = s.config ∧ t.din = s.din ∧ t.pending = s.pending) ∧
  (∀ (s : State) (klen nlen : Fin 256), klen.val ≠ 32 ∨ nlen.val ≠ 8 →
    ∃ t, exec (.init klen nlen) s = .next t ∧ AnswersError s t 1) ∧
  decode 0x00008201 = .ok (.init 32 8) ∧
  (∀ w : Word, w.extractLsb' 0 4 = 0x1 → w.extractLsb' 20 12 ≠ 0 → AnsweredIllegal w)

/-- R137, R138: SET_POS. While KEYED = 1 it completes for every DIN: S[8] and S[9] take the position on DIN[0..7], DOUT is zero, and
nothing else changes. -/
def Obligations.SetPosWritesTheCounter : Prop :=
  (∀ s : State, s.keyed = true →
    exec .setPos s = .next { s with
      ctrLo := le32 s.din[0] s.din[1] s.din[2] s.din[3], ctrHi := le32 s.din[4] s.din[5] s.din[6] s.din[7],
      dout := Vector.replicate 64 0, rsp := some 0x10 }) ∧
  (∀ s : State, s.keyed = false → ∃ t, exec .setPos s = .next t ∧ AnswersError s t 3) ∧
  decode 0x00000002 = .ok .setPos ∧
  (∀ w : Word, w.extractLsb' 0 4 = 0x2 → w.extractLsb' 4 28 ≠ 0 → AnsweredIllegal w)

/-- R135: GET_POS. While KEYED = 1 it completes, at every counter value: DOUT[0..7] are the bytes of S[9] ‖ S[8], the rest of DOUT
is zero, and nothing else changes. -/
def Obligations.GetPosReadsTheCounter : Prop :=
  (∀ s : State, s.keyed = true →
    exec .getPos s = .next { s with
      dout := Vector.ofFn fun j => if j.val < 4 then s.ctrLo.extractLsb' (8 * j.val) 8
        else if j.val < 8 then s.ctrHi.extractLsb' (8 * (j.val - 4)) 8 else 0,
      rsp := some 0x10 }) ∧
  (∀ s : State, s.keyed = false → ∃ t, exec .getPos s = .next t ∧ AnswersError s t 3) ∧
  decode 0x00000003 = .ok .getPos ∧
  (∀ w : Word, w.extractLsb' 0 4 = 0x3 → w.extractLsb' 4 28 ≠ 0 → AnsweredIllegal w)

/-- R122, R123: GEN_BLOCK. While KEYED = 1 and ctr is not 2^64 - 1 it completes: DOUT is the little-endian serialization of the
permuted matrix plus the matrix, ctr advances by one with the carry from S[8] into S[9], and nothing else changes. -/
def Obligations.GenBlockMakesTheBlockAndAdvances : Prop :=
  (∀ s : State, s.keyed = true → ¬ (s.ctrLo = 0xFFFFFFFF ∧ s.ctrHi = 0xFFFFFFFF) →
    exec .genBlock s = .next { s with
      ctrLo := s.ctrLo + 1, ctrHi := if s.ctrLo + 1 = 0 then s.ctrHi + 1 else s.ctrHi,
      dout := wordsToBus (Vector.ofFn fun i => (permuteRounds s.config.rounds.toNat s.matrix)[i] + s.matrix[i]),
      rsp := some 0x10 }) ∧
  (∀ s : State, s.keyed = false → ∃ t, exec .genBlock s = .next t ∧ AnswersError s t 3) ∧
  (∀ s : State, s.keyed = true → s.ctrLo = 0xFFFFFFFF → s.ctrHi = 0xFFFFFFFF →
    ∃ t, exec .genBlock s = .next t ∧ AnswersError s t 2) ∧
  decode 0x00000004 = .ok .genBlock ∧
  (∀ w : Word, w.extractLsb' 0 4 = 0x4 → w.extractLsb' 4 28 ≠ 0 → AnsweredIllegal w)

/-- R109: QROUND completes in every state, for every four positions, equal ones too: DOUT is the quarter-round of the vector on DIN,
RSP reports OK and the unchanged KEYED, and nothing else changes. -/
def Obligations.QroundAppliesOneQuarterRound : Prop :=
  (∀ (s : State) (a b c d : Fin 16),
    exec (.qround a b c d) s = .next { s with
      dout := wordsToBus (quarterRound (busWords s.din) a b c d), rsp := some (if s.keyed then 0x10 else 0x00) }) ∧
  (∀ w : Word, w.extractLsb' 0 4 = 0x5 → w.extractLsb' 20 12 = 0 → ∃ a b c d, decode w = .ok (.qround a b c d) ∧
    a.val = (w.extractLsb' 4 4).toNat ∧ b.val = (w.extractLsb' 8 4).toNat ∧
    c.val = (w.extractLsb' 12 4).toNat ∧ d.val = (w.extractLsb' 16 4).toNat) ∧
  (∀ w : Word, w.extractLsb' 0 4 = 0x5 → w.extractLsb' 20 12 ≠ 0 → AnsweredIllegal w)

/-- R111: DROUND completes in every state: DOUT is the double round of the vector on DIN, whatever R is, and nothing else changes. -/
def Obligations.DroundAppliesOneDoubleRound : Prop :=
  (∀ s : State, exec .dround s = .next { s with
    dout := wordsToBus (doubleRound (busWords s.din)), rsp := some (if s.keyed then 0x10 else 0x00) }) ∧
  decode 0x00000006 = .ok .dround ∧
  (∀ w : Word, w.extractLsb' 0 4 = 0x6 → w.extractLsb' 4 28 ≠ 0 → AnsweredIllegal w)

/-- R113: PERMUTE completes in every state: DOUT is R double rounds of the vector on DIN, without feed-forward; with R = 1 it is
DROUND; nothing else changes. -/
def Obligations.PermuteAppliesTheDoubleRounds : Prop :=
  (∀ s : State, exec .permute s = .next { s with
    dout := wordsToBus (doubleRound^[s.config.rounds.toNat] (busWords s.din)),
    rsp := some (if s.keyed then 0x10 else 0x00) }) ∧
  (∀ s : State, s.config.rounds = 1 → exec .permute s = exec .dround s) ∧
  decode 0x00000007 = .ok .permute ∧
  (∀ w : Word, w.extractLsb' 0 4 = 0x7 → w.extractLsb' 4 28 ≠ 0 → AnsweredIllegal w)

/-- R150: GET_INFO completes in every state: DOUT word 0 is INFO, the rest of DOUT is zero, and nothing else changes. -/
def Obligations.GetInfoReadsInfo : Prop :=
  (∀ s : State, ∃ t, exec .getInfo s = .next t ∧ busWord t.dout 0 = infoWord s.config ∧
    (∀ k (h : k < 64), 4 ≤ k → t.dout[k] = 0) ∧ t = { s with dout := t.dout, rsp := some (if s.keyed then 0x10 else 0x00) }) ∧
  decode 0x00000008 = .ok .getInfo ∧
  (∀ w : Word, w.extractLsb' 0 4 = 0x8 → w.extractLsb' 4 28 ≠ 0 → AnsweredIllegal w)

/-- R147: a failing INIT, for whichever reason, keeps S and KEYED and zeroes DOUT; a 16-byte key fails with INVALID_LENGTH. -/
def Obligations.FailingInitKeepsTheInstance : Prop :=
  (∀ w : Word, w.extractLsb' 0 4 = 0x1 → w.extractLsb' 20 12 ≠ 0 → AnsweredIllegal w) ∧
  (∀ (s : State) (w : Word) (din : Bus) (rest : List PortEvent), s.pending = .command w din :: rest →
    w.extractLsb' 0 4 = 0x1 → w.extractLsb' 20 12 = 0 → w.extractLsb' 4 8 ≠ 32 ∨ w.extractLsb' 12 8 ≠ 8 →
    ∃ t, step s = .next t ∧ AnswersError { s with din := din, pending := rest } t 1) ∧
  (∀ (s : State) (nlen : Fin 256), ∃ t, exec (.init 16 nlen) s = .next t ∧ AnswersError s t 1)

/-! ## State, registers and bus views -/

/-- R21: the constant words hold their values in every state, so no command writes them. -/
def Obligations.ConstantWordsAreHardwired : Prop :=
  ∀ s : State, s.word? 0 = some 0x61707865 ∧ s.word? 5 = some 0x3320646e ∧ s.word? 10 = some 0x79622d32 ∧
    s.word? 15 = some 0x6b206574

/-- R25: ctr is S[9] ‖ S[8], and writing n to it writes n[31:0] to S[8] and n[63:32] to S[9], and nothing else. -/
def Obligations.CounterIsHighWordThenLowWord : Prop :=
  (∀ s : State, s.keyed = true → ∃ lo hi : Word, s.word? 8 = some lo ∧ s.word? 9 = some hi ∧
    s.ctr.toNat = hi.toNat * 2 ^ 32 + lo.toNat) ∧
  (∀ (s : State) (n : Position), (s.setCtr n).ctr = n ∧
    s.setCtr n = { s with ctrLo := n.extractLsb' 0 32, ctrHi := n.extractLsb' 32 32 })

/-- R30: the fields of INFO, its value for R = 10, GET_INFO reads it, and no step changes it. -/
def Obligations.InfoHasItsFields : Prop :=
  (∀ c : Config, (infoWord c).extractLsb' 0 8 = 64 ∧ (infoWord c).extractLsb' 8 8 = 32 ∧ (infoWord c).extractLsb' 16 8 = 8 ∧
    (infoWord c).extractLsb' 24 8 = c.rounds) ∧ infoWord ⟨10⟩ = 0x0A082040 ∧
  (∀ s : State, ∃ t, exec .getInfo s = .next t ∧ busWord t.dout 0 = infoWord s.config) ∧
  (∀ s t : State, step s = .next t → infoWord t.config = infoWord s.config)

/-- R51, R55: the word views of the buses. Byte j is bits [8(j mod 4)+7 : 8(j mod 4)] of word j div 4, for a bus that is read and for
one that is written; LE32 is b0 | b1 << 8 | b2 << 16 | b3 << 24; bytes 0..7 as a 64-bit value are word1 ‖ word0. -/
def Obligations.BusViewsAreLittleEndian : Prop :=
  (∀ b0 b1 b2 b3 : Byte, le32 b0 b1 b2 b3 =
    b0.setWidth 32 ||| b1.setWidth 32 <<< 8 ||| b2.setWidth 32 <<< 16 ||| b3.setWidth 32 <<< 24) ∧
  (∀ (b : Bus) (i : Fin 16), (busWords b)[i] = le32 b[4 * i.val] b[4 * i.val + 1] b[4 * i.val + 2] b[4 * i.val + 3]) ∧
  (∀ (b : Bus) (k : Nat) (h : k < 64), b[k] = ((busWords b)[k / 4]).extractLsb' (8 * (k % 4)) 8) ∧
  (∀ (v : WordVec) (k : Nat) (h : k < 64), (wordsToBus v)[k] = (v[k / 4]).extractLsb' (8 * (k % 4)) 8) ∧
  (∀ b : Bus, busPosition b = ((busWords b)[1] ++ (busWords b)[0] : BitVec 64))

/-- R54: the block position on the buses: SET_POS takes n = LE64(DIN[0..7]) = DINW(1) ‖ DINW(0), and GET_POS writes
DOUT[j] <- ctr[8j+7:8j], for a keyed block. -/
def Obligations.PositionOnTheBuses : Prop :=
  (∀ s : State, s.keyed = true → ∃ t, exec .setPos s = .next t ∧
    t.ctr.toNat = s.din[0].toNat + s.din[1].toNat * 2 ^ 8 + s.din[2].toNat * 2 ^ 16 + s.din[3].toNat * 2 ^ 24 +
      s.din[4].toNat * 2 ^ 32 + s.din[5].toNat * 2 ^ 40 + s.din[6].toNat * 2 ^ 48 + s.din[7].toNat * 2 ^ 56 ∧
    t.ctr.toNat = (busWord s.din 1).toNat * 2 ^ 32 + (busWord s.din 0).toNat) ∧
  (∀ s : State, s.keyed = true → ∃ t, exec .getPos s = .next t ∧
    ∀ j (h : j < 8), t.dout[j] = s.ctr.extractLsb' (8 * j) 8)

/-! ## The round function -/

/-- R100: QR(v, a, b, c, d) is four in-place steps in order, each reading what the earlier ones wrote, and a position other than
a, b, c, d is unchanged. -/
def Obligations.QuarterRoundIsFourStepsInOrder : Prop :=
  ∀ (v : WordVec) (a b c d : Fin 16), ∃ v1 v2 v3 : WordVec,
    (∀ i : Fin 16, v1[i] = if i = b then v[b] ^^^ (v[a] + v[d]).rotateLeft 7 else v[i]) ∧
    (∀ i : Fin 16, v2[i] = if i = c then v1[c] ^^^ (v1[b] + v1[a]).rotateLeft 9 else v1[i]) ∧
    (∀ i : Fin 16, v3[i] = if i = d then v2[d] ^^^ (v2[c] + v2[b]).rotateLeft 13 else v2[i]) ∧
    (∀ i : Fin 16, (quarterRound v a b c d)[i] = if i = a then v3[a] ^^^ (v3[d] + v3[c]).rotateLeft 18 else v3[i]) ∧
    (∀ i : Fin 16, i ≠ a → i ≠ b → i ≠ c → i ≠ d → (quarterRound v a b c d)[i] = v[i])

/-- R102, R103, R104, R106: the rounds' position tuples and their order, the double round as the column round and then the row round
(an order that matters), and the permutation as exactly R double rounds. -/
def Obligations.RoundsAndTheirOrder : Prop :=
  (∀ v : WordVec, columnRound v = [(0, 4, 8, 12), (5, 9, 13, 1), (10, 14, 2, 6), (15, 3, 7, 11)].foldl
    (fun v (p : Fin 16 × Fin 16 × Fin 16 × Fin 16) => quarterRound v p.1 p.2.1 p.2.2.1 p.2.2.2) v) ∧
  (∀ v : WordVec, rowRound v = [(0, 1, 2, 3), (5, 6, 7, 4), (10, 11, 8, 9), (15, 12, 13, 14)].foldl
    (fun v (p : Fin 16 × Fin 16 × Fin 16 × Fin 16) => quarterRound v p.1 p.2.1 p.2.2.1 p.2.2.2) v) ∧
  (∀ v : WordVec, doubleRound v = rowRound (columnRound v)) ∧
  (doubleRound (Vector.ofFn fun i => if i = 0 then 1 else 0) ≠
    columnRound (rowRound (Vector.ofFn fun i => if i = 0 then 1 else 0))) ∧
  (∀ (n : Nat) (v : WordVec), permuteRounds n v = doubleRound^[n] v)

/-- R105: the position tuples of the column round, and of the row round, are disjoint and cover all 16 positions; the four quarter-rounds of a
round may be computed in any order, or in parallel: each
group's words are those of its own quarter-round of the round's input. -/
def Obligations.QuarterRoundsOfARoundCommute : Prop :=
  ([0, 4, 8, 12] ++ [5, 9, 13, 1] ++ [10, 14, 2, 6] ++ [15, 3, 7, 11] : List (Fin 16)).Perm (List.finRange 16) ∧
  ([0, 1, 2, 3] ++ [5, 6, 7, 4] ++ [10, 11, 8, 9] ++ [15, 12, 13, 14] : List (Fin 16)).Perm (List.finRange 16) ∧
  (∀ (l : List (Fin 16 × Fin 16 × Fin 16 × Fin 16)) (v : WordVec),
    l.Perm [(0, 4, 8, 12), (5, 9, 13, 1), (10, 14, 2, 6), (15, 3, 7, 11)] →
    l.foldl (fun v p => quarterRound v p.1 p.2.1 p.2.2.1 p.2.2.2) v = columnRound v) ∧
  (∀ (l : List (Fin 16 × Fin 16 × Fin 16 × Fin 16)) (v : WordVec),
    l.Perm [(0, 1, 2, 3), (5, 6, 7, 4), (10, 11, 8, 9), (15, 12, 13, 14)] →
    l.foldl (fun v p => quarterRound v p.1 p.2.1 p.2.2.1 p.2.2.2) v = rowRound v) ∧
  (∀ (v : WordVec), ∀ p ∈ [((0 : Fin 16), (4 : Fin 16), (8 : Fin 16), (12 : Fin 16)), (5, 9, 13, 1), (10, 14, 2, 6), (15, 3, 7, 11)],
    ∀ i ∈ [p.1, p.2.1, p.2.2.1, p.2.2.2], (columnRound v)[i] = (quarterRound v p.1 p.2.1 p.2.2.1 p.2.2.2)[i]) ∧
  (∀ (v : WordVec), ∀ p ∈ [((0 : Fin 16), (1 : Fin 16), (2 : Fin 16), (3 : Fin 16)), (5, 6, 7, 4), (10, 11, 8, 9), (15, 12, 13, 14)],
    ∀ i ∈ [p.1, p.2.1, p.2.2.1, p.2.2.2], (rowRound v)[i] = (quarterRound v p.1 p.2.1 p.2.2.1 p.2.2.2)[i])

/-- R107: the zero vector is a fixed point of the quarter-round, the double round and the permutation, for every R; a quarter-round
of an all-zero group is zero. -/
def Obligations.ZeroVectorIsFixed : Prop :=
  (∀ (v : WordVec) (a b c d : Fin 16), v[a] = 0 → v[b] = 0 → v[c] = 0 → v[d] = 0 → quarterRound v a b c d = v) ∧
  doubleRound (Vector.replicate 16 0) = Vector.replicate 16 0 ∧
  ∀ n : Nat, permuteRounds n (Vector.replicate 16 0) = Vector.replicate 16 0

/-- R108: on pairwise distinct positions QR_inv undoes QR and QR undoes QR_inv; so the column round, the row round, the double round and
the permutation are bijections. -/
def Obligations.RoundFunctionIsInvertible : Prop :=
  (∀ (v : WordVec) (a b c d : Fin 16), a ≠ b → a ≠ c → a ≠ d → b ≠ c → b ≠ d → c ≠ d →
    quarterRoundInv (quarterRound v a b c d) a b c d = v ∧ quarterRound (quarterRoundInv v a b c d) a b c d = v) ∧
  Function.Bijective columnRound ∧ Function.Bijective rowRound ∧ Function.Bijective doubleRound ∧
  ∀ n : Nat, Function.Bijective (permuteRounds n)

/-- R110: QROUND, DROUND and PERMUTE read only DIN (and the fixed R) and write only DOUT, with the response: states that differ in S and
KEYED get the same DOUT and code, and S, KEYED and ctr stay as they are, with or without a prior INIT. -/
def Obligations.RoundCommandsReadOnlyDin : Prop :=
  ∀ (i : Instr) (s t : State), (∃ a b c d, i = .qround a b c d) ∨ i = .dround ∨ i = .permute →
    s.din = t.din → s.config = t.config →
    ∃ s' t' w w', exec i s = .next s' ∧ exec i t = .next t' ∧ s'.dout = t'.dout ∧
      s'.rsp = some w ∧ t'.rsp = some w' ∧ w.extractLsb' 0 4 = 0 ∧ w'.extractLsb' 0 4 = 0 ∧
      s' = { s with dout := s'.dout, rsp := s'.rsp } ∧ t' = { t with dout := t'.dout, rsp := t'.rsp }

/-- R112: four QROUND commands, each DOUT fed back as the next DIN, with the tuples of R102 or of R103 in order, compute the column round
or the row round. -/
def Obligations.FourQroundsComputeARound : Prop :=
  ∀ (s s1 s2 s3 s4 : State),
    (exec (.qround 0 4 8 12) s = .next s1 → exec (.qround 5 9 13 1) { s1 with din := s1.dout } = .next s2 →
      exec (.qround 10 14 2 6) { s2 with din := s2.dout } = .next s3 →
      exec (.qround 15 3 7 11) { s3 with din := s3.dout } = .next s4 →
      busWords s4.dout = columnRound (busWords s.din)) ∧
    (exec (.qround 0 1 2 3) s = .next s1 → exec (.qround 5 6 7 4) { s1 with din := s1.dout } = .next s2 →
      exec (.qround 10 11 8 9) { s2 with din := s2.dout } = .next s3 →
      exec (.qround 15 12 13 14) { s3 with din := s3.dout } = .next s4 →
      busWords s4.dout = rowRound (busWords s.din))

/-- R114: the state matrix put on DIN, permuted by PERMUTE and added word by word gives the words of GEN_BLOCK for that state. -/
def Obligations.PermutePlusFeedForwardIsGenBlock : Prop :=
  ∀ s p g : State, s.keyed = true → s.ctr ≠ 0xFFFFFFFFFFFFFFFF → busWords s.din = s.matrix →
    exec .permute s = .next p → exec .genBlock s = .next g →
    ∀ i : Fin 16, busWord g.dout i = busWord p.dout i + busWord s.din i

/-! ## Keystream and counter -/

/-- R121, R52: byte 4i+j of BLOCK(S0) is bits [8j+7:8j] of z[i] = x[i] + S0[i], with x = PERM_R(S0). -/
def Obligations.BlockBytesAreTheFeedForwardWords : Prop :=
  ∀ (rounds : Nat) (s0 : WordVec) (i j : Nat) (hi : i < 16) (hj : j < 4),
    (block rounds s0)[4 * i + j] = (((doubleRound^[rounds] s0)[i]) + s0[i]).extractLsb' (8 * j) 8

/-- R124: GEN_BLOCK at ctr = 2^64 - 1 fails with COUNTER_EXHAUSTED, makes no block and leaves ctr; and the condition is not sticky:
after a SET_POS to any other position, or an INIT, GEN_BLOCK succeeds. -/
def Obligations.ExhaustionIsReportedAndNotSticky : Prop :=
  ∀ s : State, s.keyed = true → s.ctr = 0xFFFFFFFFFFFFFFFF →
    ∃ t, exec .genBlock s = .next t ∧ AnswersError s t 2 ∧
      (∀ din : Bus, busPosition din ≠ 0xFFFFFFFFFFFFFFFF →
        ∃ u v, exec .setPos { t with din := din } = .next u ∧ exec .genBlock u = .next v ∧ v.rsp = some 0x10 ∧
          v.ctr = busPosition din + 1) ∧
      (∀ din : Bus, ∃ u v, exec (.init 32 8) { t with din := din } = .next u ∧ exec .genBlock u = .next v ∧
        v.rsp = some 0x10 ∧ v.ctr = 1)

/-- R125: after an INIT (KEYED = 1, ctr = 0), the k-th GEN_BLOCK, counted from 0, returns BLOCK at ctr = k and leaves ctr = k + 1, whatever
commands other than SET_POS and a successful INIT stand between the GEN_BLOCKs, illegal ones too, and whatever is on DIN; and any GEN_BLOCK
returns BLOCK of the state with the counter before the advance. -/
def Obligations.KthGenBlockReturnsBlockK : Prop :=
  (∀ (s : State) (cmds : List (Word × Bus)) (din : Bus) (k : Nat), s.keyed = true → s.ctr = 0 →
    (∀ c ∈ cmds, decode c.1 ≠ .ok .setPos ∧ decode c.1 ≠ .ok (.init 32 8)) →
    (cmds.filter (fun c => c.1 = 0x00000004)).length = k → k < 2 ^ 64 - 1 →
    ∃ t : State, Host.Core.run Sys2Proof.core (cmds.length + 1)
        { s with pending := cmds.map (fun c => .command c.1 c.2) ++ [.command 0x00000004 din] } = .next t ∧
      t.dout = block s.config.rounds.toNat (s.setCtr (BitVec.ofNat 64 k)).matrix ∧
      t.ctr = BitVec.ofNat 64 (k + 1) ∧ t.rsp = some 0x10 ∧
      t.key = s.key ∧ t.nonce = s.nonce ∧ t.keyed = true ∧ t.config = s.config) ∧
  (∀ s t : State, exec .genBlock s = .next t → t.rsp = some 0x10 →
    t.dout = block s.config.rounds.toNat s.matrix ∧ t.ctr = s.ctr + 1)

/-- The block capacity of one (key, nonce) pair (R127): from ctr = 0, with no SET_POS or INIT between, exactly the first 2^64 - 1
GEN_BLOCKs succeed, and every later one is answered COUNTER_EXHAUSTED. -/
def Obligations.GenBlockSucceedsExactlyTwoPow64MinusOneTimes : Prop :=
  ∀ (s : State) (dins : List Bus), s.keyed = true → s.ctr = 0 → dins ≠ [] →
    ∃ t : State, Host.Core.run Sys2Proof.core dins.length { s with pending := dins.map (.command 0x00000004) } = .next t ∧
      (dins.length ≤ 2 ^ 64 - 1 → t.rsp = some 0x10) ∧
      (2 ^ 64 - 1 < dins.length → t.rsp = some 0x12 ∧ t.ctr = 0xFFFFFFFFFFFFFFFF ∧ ∀ k (h : k < 64), t.dout[k] = 0)

/-- R128: the output of a successful GEN_BLOCK depends on key, nonce, ctr and R only; and block n is the same whether it is reached by
SET_POS(n) or by n earlier GEN_BLOCKs. -/
def Obligations.SeekingGivesTheSameBlockAsCounting : Prop :=
  (∀ s t s' t' : State, s.keyed = true → t.keyed = true → s.ctr ≠ 0xFFFFFFFFFFFFFFFF →
    s.key = t.key → s.nonce = t.nonce → s.ctr = t.ctr → s.config = t.config →
    exec .genBlock s = .next s' → exec .genBlock t = .next t' → s'.dout = t'.dout) ∧
  (∀ (s : State) (dins : List Bus) (din seek gen : Bus), s.keyed = true → s.ctr = 0 → dins.length < 2 ^ 64 - 1 →
    busPosition seek = BitVec.ofNat 64 dins.length →
    ∃ t u : State, Host.Core.run Sys2Proof.core (dins.length + 1) { s with pending := (dins ++ [din]).map (.command 0x00000004) } =
        .next t ∧
      Host.Core.run Sys2Proof.core 2 { s with pending := [.command 0x00000002 seek, .command 0x00000004 gen] } = .next u ∧
      t.dout = u.dout ∧ t.ctr = u.ctr ∧ t.rsp = some 0x10 ∧ u.rsp = some 0x10)

/-- R136, R139, R140: SET_POS(n) then GET_POS returns LE64(n); SET_POS(n) then GEN_BLOCK returns the block at ctr = n under the same key
and nonce; a successful GEN_BLOCK then GET_POS returns the earlier position plus one; GET_POS has no side effect on S, and two in a row
return the same bytes. -/
def Obligations.PositionsFollowTheCommands : Prop :=
  (∀ s : State, s.keyed = true → ∃ t u, exec .setPos s = .next t ∧ exec .getPos t = .next u ∧
    ∀ j (h : j < 8), u.dout[j] = (busPosition s.din).extractLsb' (8 * j) 8) ∧
  (∀ s : State, s.keyed = true → busPosition s.din ≠ 0xFFFFFFFFFFFFFFFF →
    ∃ t u, exec .setPos s = .next t ∧ t.key = s.key ∧ t.nonce = s.nonce ∧ t.keyed = s.keyed ∧
      (∀ i ∈ [0, 5, 10, 15], t.word? i = s.word? i) ∧ exec .genBlock t = .next u ∧
      u.dout = block s.config.rounds.toNat (s.setCtr (busPosition s.din)).matrix ∧ u.ctr = busPosition s.din + 1) ∧
  (∀ s t : State, exec .genBlock s = .next t → t.rsp = some 0x10 →
    ∃ u, exec .getPos t = .next u ∧ ∀ j (h : j < 8), u.dout[j] = (s.ctr + 1).extractLsb' (8 * j) 8) ∧
  (∀ s t : State, exec .getPos s = .next t → SameBlock s t ∧ ∃ u, exec .getPos t = .next u ∧ u.dout = t.dout)

/-! ## Whole-machine rules -/

/-- R27: the key, nonce and constant words change in no step but a successful INIT's and reset's; a successful GEN_BLOCK adds exactly 1 to
ctr, INIT sets it to 0, and SET_POS may set it to any value. -/
def Obligations.OnlyInitChangesKeyAndNonce : Prop :=
  (∀ (s t : State) (cmd : Word) (din : Bus) (rest : List PortEvent),
    s.pending = .command cmd din :: rest → step s = .next t → decode cmd ≠ .ok (.init 32 8) →
    t.key = s.key ∧ t.nonce = s.nonce ∧ ∀ i ∈ [0, 5, 10, 15], t.word? i = s.word? i) ∧
  (∀ s t : State, exec .genBlock s = .next t → t.rsp = some 0x10 → t.ctr.toNat = s.ctr.toNat + 1) ∧
  (∀ s : State, ∃ t, exec (.init 32 8) s = .next t ∧ t.ctr = 0) ∧
  (∀ (s : State) (n : Position), s.keyed = true →
    ∃ (din : Bus) (t : State), exec .setPos { s with din := din } = .next t ∧ t.ctr = n)

/-- R28: KEYED. While it is 1 every key, nonce and counter word holds a value; reset clears it, a successful INIT sets it, no command clears it
and nothing else sets it; GEN_BLOCK, GET_POS and SET_POS fail with NOT_INITIALISED while it is 0; every response carries its value after
the command. -/
def Obligations.KeyedFollowsInitAndReset : Prop :=
  (∀ (s : State) (i : Fin 16), s.keyed = true → (s.word? i).isSome) ∧
  (∀ c : Config, (State.resetFor c).keyed = false) ∧
  (∀ s : State, ∃ t, exec (.init 32 8) s = .next t ∧ t.keyed = true) ∧
  (∀ (s t : State) (cmd : Word) (din : Bus) (rest : List PortEvent),
    s.pending = .command cmd din :: rest → step s = .next t →
    (s.keyed = true → t.keyed = true) ∧
    (s.keyed = false → t.keyed = true → decode cmd = .ok (.init 32 8)) ∧
    ∃ w, t.rsp = some w ∧ w.getLsbD 4 = t.keyed) ∧
  (∀ (s : State) (i : Instr), s.keyed = false → i = .genBlock ∨ i = .getPos ∨ i = .setPos →
    ∃ t, exec i s = .next t ∧ AnswersError s t 3)

/-- R26, R58: the side effects of each command. Only INIT writes key, nonce and KEYED, only INIT, SET_POS and GEN_BLOCK write ctr, a failing
command writes DOUT and its response only, repeating a command without side effects gives the same response, and GEN_BLOCK is not
idempotent. -/
def Obligations.SideEffectsOfEachCommand : Prop :=
  ∀ (i : Instr) (s t : State), exec i s = .next t →
    (t.config = s.config ∧ t.din = s.din ∧ t.pending = s.pending) ∧
    ((∀ klen nlen, i ≠ .init klen nlen) → t.key = s.key ∧ t.nonce = s.nonce ∧ t.keyed = s.keyed) ∧
    ((∀ klen nlen, i ≠ .init klen nlen) → i ≠ .setPos → i ≠ .genBlock →
      t.ctrLo = s.ctrLo ∧ t.ctrHi = s.ctrHi ∧ exec i t = .next t) ∧
    (i = .genBlock → t.rsp = some 0x10 → t.ctr ≠ s.ctr) ∧
    (∀ w, t.rsp = some w → w.extractLsb' 0 4 ≠ 0 → AnswersError s t (w.extractLsb' 0 4))

/-- R83, R84: a command ignores every DIN byte it does not read: states that differ only in DIN, and agree on the bytes R84 names for the
command, get the same response and the same state. -/
def Obligations.UnreadDinBytesAreIgnored : Prop :=
  ∀ (i : Instr) (s t s' : State), SameButDin s t → (∀ k (h : k < 64), k < dinBytesRead i → t.din[k] = s.din[k]) →
    exec i s = .next s' → ∃ t', exec i t = .next t' ∧ SameButDin s' t'

/-! ## The host's orchestrator -/

/-- R162: `new`. With a 32-byte key and an 8-byte nonce it builds an instance at keystream byte 0; otherwise it returns InvalidLength, and
the block's instance stays as it was; the host's memory is untouched. Lengths the command field can carry, right or wrong, it sends in an INIT
with the true lengths, and the block refuses the wrong ones with INVALID_LENGTH, whatever DIN holds; a length above 255 it refuses itself,
sending nothing. -/
def Obligations.NewBuildsAnInstance : Prop :=
  (∀ (o : Orchestrator) (key nonce : List Byte) (_ : key.length = 32) (_ : nonce.length = 8),
    ∃ o', o.new key nonce = (o', .ok) ∧ o'.cur = 0 ∧ o'.block.keyed = true ∧ o'.block.ctr = 0 ∧ o'.mem = o.mem ∧
      o'.block.config = o.block.config ∧
      (∀ i (_ : i < 8), o'.block.key[i] =
        le32 (key.getD (4 * i) 0) (key.getD (4 * i + 1) 0) (key.getD (4 * i + 2) 0) (key.getD (4 * i + 3) 0)) ∧
      (∀ i (_ : i < 2), o'.block.nonce[i] =
        le32 (nonce.getD (4 * i) 0) (nonce.getD (4 * i + 1) 0) (nonce.getD (4 * i + 2) 0) (nonce.getD (4 * i + 3) 0))) ∧
  (∀ (o : Orchestrator) (key nonce : List Byte), key.length ≠ 32 ∨ nonce.length ≠ 8 →
    ∃ o', o.new key nonce = (o', .invalidLength) ∧ SameBlock o.block o'.block ∧ o'.mem = o.mem ∧ o'.hbuf = o.hbuf ∧
      o'.cur = o.cur ∧ (key.length > 255 ∨ nonce.length > 255 → o' = o) ∧
      (key.length ≤ 255 → nonce.length ≤ 255 →
        o'.block.rsp = some (responseWord o.block.keyed .invalidLength) ∧ (∀ k (h : k < 64), o'.block.dout[k] = 0))) ∧
  (∀ (o : Orchestrator) (key nonce : List Byte) (klen nlen : Fin 256), key.length = klen.val → nonce.length = nlen.val →
    (∃ din, step (o.block.present (encode (.init klen nlen)) din) = .next (o.new key nonce).1.block) ∧
    (klen.val ≠ 32 ∨ nlen.val ≠ 8 → ∀ din, ∃ t,
      step (o.block.present (encode (.init klen nlen)) din) = .next t ∧ SameButDin t (o.new key nonce).1.block))

/-- `seek(n)` leaves the instance at byte 0 of block n, and `seek_bytes(q)` at keystream byte q, with ctr = q div 64 + 1 when
q mod 64 is not 0 (R164, R165); neither touches the caller's buffers. That `seek_bytes` leaves the whole of the host's memory is the model's
choice: its scratch buffer is a memory of its own (log 13). -/
def Obligations.SeeksGoToTheirPosition : Prop :=
  (∀ (o : Orchestrator) (n : Position), o.block.keyed = true →
    ∃ o', o.seek n = (o', .ok) ∧ o'.cur = 0 ∧ o'.block.ctr = n ∧ o'.AtByte (64 * n.toNat) ∧ o'.mem = o.mem ∧
      o'.block.key = o.block.key ∧ o'.block.nonce = o.block.nonce) ∧
  (∀ (o : Orchestrator) (q : Position), o.block.keyed = true →
    ∃ o', o.seekBytes q = (o', .ok) ∧ o'.AtByte q.toNat ∧ o'.cur.val = q.toNat % 64 ∧
      (q.toNat % 64 ≠ 0 → o'.block.ctr.toNat = q.toNat / 64 + 1) ∧ o'.mem = o.mem ∧
      o'.block.key = o.block.key ∧ o'.block.nonce = o.block.nonce ∧ o'.block.config = o.block.config)

/-- R169: after `new` the instance is at keystream byte 0 and after `seek_bytes(q)` at q; a successful `apply_keystream(buf, L)` from byte q
xors byte buf+k with KS(key, nonce, q+k) for k = 0..L-1, leaves every other byte of the host's memory, and leaves the instance at
byte q + L. -/
def Obligations.ApplyKeystreamXorsTheKeystream : Prop :=
  (∀ (o o' : Orchestrator) (key nonce : List Byte), o.new key nonce = (o', .ok) → o'.AtByte 0) ∧
  (∀ (o o' : Orchestrator) (q : Position), o.seekBytes q = (o', .ok) → o'.AtByte q.toNat) ∧
  (∀ (o o' : Orchestrator) (buf len q : Nat), Memory.WF o.mem → o.AtByte q → o.applyKeystream buf len = (o', .ok) →
    (∀ k < len, o'.mem.read (buf + k) = o.mem.read (buf + k) ^^^ o.keystreamByte (q + k)) ∧
    (∀ a, a < buf ∨ buf + len ≤ a → o'.mem.read a = o.mem.read a) ∧
    o'.AtByte (q + len) ∧ Memory.WF o'.mem ∧
    o'.block.key = o.block.key ∧ o'.block.nonce = o.block.nonce ∧ o'.block.config = o.block.config)

/-- When `apply_keystream` succeeds (R163, R167): with a keyed block, a call that needs no new block returns ok, and so does one whose new blocks
remain, counted from the block position, while the CounterExhausted condition does not hold. A call that needs a new block returns
CounterExhausted when the condition holds or too few blocks remain, with the buffer, HBUF, CUR and the block's S, KEYED and ctr
unchanged, and so does every later call that needs a new block. That the host records the condition, beside R163's check, is the
model's choice (log 17). -/
def Obligations.ApplyKeystreamChecksBeforeWriting : Prop :=
  ∀ (o : Orchestrator) (buf len : Nat), o.block.keyed = true →
    (o.blocksNeeded len = 0 → ∃ o', o.applyKeystream buf len = (o', .ok)) ∧
    (o.exhaustedAt = none → o.blocksNeeded len ≤ (2 ^ 64 - 1) - o.block.ctr.toNat →
      ∃ o', o.applyKeystream buf len = (o', .ok)) ∧
    (o.blocksNeeded len ≠ 0 → o.exhaustedAt ≠ none ∨ o.blocksNeeded len > (2 ^ 64 - 1) - o.block.ctr.toNat →
      ∃ o', o.applyKeystream buf len = (o', .counterExhausted) ∧ o'.mem = o.mem ∧ o'.hbuf = o.hbuf ∧ o'.cur = o.cur ∧
        SameBlock o.block o'.block ∧
        ∀ buf' len', o'.blocksNeeded len' ≠ 0 → (o'.applyKeystream buf' len').2 = .counterExhausted)

/-- R166, R168: the host's transitions between "aligned" and "mid-block", and its get_block_position. -/
def Obligations.HostStateTransitions : Prop :=
  (∀ (o o' : Orchestrator) (key nonce : List Byte), o.new key nonce = (o', .ok) → o'.cur = 0) ∧
  (∀ (o o' : Orchestrator) (n : Position), o.seek n = (o', .ok) → o'.cur = 0) ∧
  (∀ (o o' : Orchestrator) (q : Position), o.seekBytes q = (o', .ok) → o'.cur.val = q.toNat % 64) ∧
  (∀ (o o' : Orchestrator) (buf len : Nat), o.applyKeystream buf len = (o', .ok) →
    o'.cur.val = (o.cur.val + len) % 64) ∧
  (∀ (o o' : Orchestrator) (buf len : Nat), o.applyKeystream buf len = (o', .counterExhausted) → o'.cur = o.cur) ∧
  (∀ (o : Orchestrator) (q : Nat), o.AtByte q → ∃ o', o.getBlockPosition = (o', .ok) ∧
    busPosition o'.block.dout = o.block.ctr ∧
    (o.cur ≠ 0 → o.block.ctr.toNat = q / 64 + 1 ∧ o.hbuf = block o.block.config.rounds.toNat (o.matrixAt (q / 64))))

/-- R170: a buffer split into chunks applied in sequence ends with the same bytes, CUR and block position as one call over the whole,
whenever every call succeeds. -/
def Obligations.ChunkingDoesNotChangeTheResult : Prop :=
  ∀ (o o1 o2 : Orchestrator) (buf q : Nat) (lens : List Nat), Memory.WF o.mem → o.AtByte q →
    o.applyChunks buf lens = (o1, .ok) → o.applyKeystream buf lens.sum = (o2, .ok) →
    o1.mem = o2.mem ∧ o1.cur = o2.cur ∧ o1.block.ctr = o2.block.ctr

/-- Applying the keystream twice from the same position restores the host's memory (R171): after returning by `seek_bytes(q)`, or by a new
instance with the same key and nonce when q = 0. That the whole of the host's memory is restored across `seek_bytes`, not the buffer
alone, is the model's choice: the scratch buffer is a memory of its own (log 13). -/
def Obligations.ApplyingTwiceRestoresTheBuffer : Prop :=
  (∀ (o o1 : Orchestrator) (buf len : Nat) (q : Position), Memory.WF o.mem → o.AtByte q.toNat →
    o.applyKeystream buf len = (o1, .ok) →
    ∃ o2 o3, o1.seekBytes q = (o2, .ok) ∧ o2.applyKeystream buf len = (o3, .ok) ∧ o3.mem = o.mem) ∧
  (∀ (o o0 o1 : Orchestrator) (key nonce : List Byte) (buf len : Nat), Memory.WF o.mem →
    o.new key nonce = (o0, .ok) → o0.applyKeystream buf len = (o1, .ok) →
    ∃ o2 o3, o1.new key nonce = (o2, .ok) ∧ o2.applyKeystream buf len = (o3, .ok) ∧ o3.mem = o.mem)

/-- R224: a block reset invalidates the host's instance: until `new` succeeds again, an apply_keystream that needs a new block does not
succeed, whatever HBUF and CUR say. The model's choices: such a call ends with the result `defect` (log 11), and the reset falls between two
host operations (log 18). -/
def Obligations.BlockResetInvalidatesTheInstance : Prop :=
  ∀ (o : Orchestrator) (buf len : Nat),
    (o.blocksNeeded len ≠ 0 → (o.platformReset.applyKeystream buf len).2 = .defect ∧
      (o.platformReset.applyKeystream buf len).1.mem = o.mem) ∧
    (∀ key nonce : List Byte, key.length = 32 → nonce.length = 8 →
      ∃ o', o.platformReset.new key nonce = (o', .ok) ∧ o'.cur = 0 ∧ o'.block.keyed = true)

/-- The CounterExhausted condition of R167, as the model records it (log 17). It begins with a call that returns CounterExhausted, at that
call's block position, and with nothing else; while it holds, every call with a keyed block that needs a new block returns
CounterExhausted; no call of `apply_keystream` or get_block_position, no seek that is not to a lower position, no failing `new` and no
block reset between operations (log 18) ends it; and a seek to a lower position, or a successful `new`, does. -/
def Obligations.CounterExhaustedHoldsUntilALowerSeekOrNew : Prop :=
  (∀ (o o' : Orchestrator) (buf len : Nat) (r : HostResult), o.applyKeystream buf len = (o', r) →
    (r = .counterExhausted → o'.exhaustedAt = some o.block.ctr ∧ o'.block.ctr = o.block.ctr) ∧
    (r ≠ .counterExhausted → o'.exhaustedAt = o.exhaustedAt)) ∧
  (∀ (o : Orchestrator) (p : Position), o.exhaustedAt = some p →
    (∀ buf len, o.block.keyed = true → o.blocksNeeded len ≠ 0 →
      (o.applyKeystream buf len).2 = .counterExhausted ∧ (o.applyKeystream buf len).1.mem = o.mem) ∧
    o.getBlockPosition.1.exhaustedAt = some p ∧ o.platformReset.exhaustedAt = some p ∧
    (∀ n, p ≤ n → (o.seek n).1.exhaustedAt = some p) ∧
    (∀ q, p ≤ q / 64 → (o.seekBytes q).1.exhaustedAt = some p) ∧
    (∀ key nonce : List Byte, key.length ≠ 32 ∨ nonce.length ≠ 8 → (o.new key nonce).1.exhaustedAt = some p) ∧
    (∀ n, n < p → o.block.keyed = true → ∃ o', o.seek n = (o', .ok) ∧ o'.exhaustedAt = none) ∧
    (∀ q, q / 64 < p → o.block.keyed = true → ∃ o', o.seekBytes q = (o', .ok) ∧ o'.exhaustedAt = none)) ∧
  (∀ o : Orchestrator, o.exhaustedAt = none →
    o.getBlockPosition.1.exhaustedAt = none ∧ o.platformReset.exhaustedAt = none ∧
    (∀ n, (o.seek n).1.exhaustedAt = none) ∧ (∀ q, (o.seekBytes q).1.exhaustedAt = none) ∧
    ∀ key nonce : List Byte, (o.new key nonce).1.exhaustedAt = none) ∧
  (∀ (o : Orchestrator) (key nonce : List Byte), key.length = 32 → nonce.length = 8 →
    ∃ o', o.new key nonce = (o', .ok) ∧ o'.exhaustedAt = none)
end

