-- ==== Sys2Proof/Laws/Decode.lean ====
section
/-! SUPPORT. The fields of a command word as numbers, and the fields of an encoded word (spec 30_encoding.md R72). -/

namespace Sys2Proof

namespace Cmd

variable (cmd : Word)

theorem toNat_opc : (opc cmd).toNat = cmd.toNat % 2 ^ 4 := by simp [opc]
theorem toNat_rsvdN : (rsvdN cmd).toNat = cmd.toNat / 2 ^ 4 := by
  have := cmd.isLt
  simp [rsvdN, Nat.shiftRight_eq_div_pow]; omega
theorem toNat_rsvdLQ : (rsvdLQ cmd).toNat = cmd.toNat / 2 ^ 20 := by
  have := cmd.isLt
  simp [rsvdLQ, Nat.shiftRight_eq_div_pow]; omega
theorem val_klen : (klen cmd).val = cmd.toNat / 2 ^ 4 % 2 ^ 8 := by
  change (BitVec.extractLsb' 4 8 cmd).toNat = _; simp [Nat.shiftRight_eq_div_pow]
theorem val_nlen : (nlen cmd).val = cmd.toNat / 2 ^ 12 % 2 ^ 8 := by
  change (BitVec.extractLsb' 12 8 cmd).toNat = _; simp [Nat.shiftRight_eq_div_pow]
theorem val_ia : (ia cmd).val = cmd.toNat / 2 ^ 4 % 2 ^ 4 := by
  change (BitVec.extractLsb' 4 4 cmd).toNat = _; simp [Nat.shiftRight_eq_div_pow]
theorem val_ib : (ib cmd).val = cmd.toNat / 2 ^ 8 % 2 ^ 4 := by
  change (BitVec.extractLsb' 8 4 cmd).toNat = _; simp [Nat.shiftRight_eq_div_pow]
theorem val_ic : (ic cmd).val = cmd.toNat / 2 ^ 12 % 2 ^ 4 := by
  change (BitVec.extractLsb' 12 4 cmd).toNat = _; simp [Nat.shiftRight_eq_div_pow]
theorem val_id : (id cmd).val = cmd.toNat / 2 ^ 16 % 2 ^ 4 := by
  change (BitVec.extractLsb' 16 4 cmd).toNat = _; simp [Nat.shiftRight_eq_div_pow]

end Cmd

/-- Concatenation of fields, as a number. -/
theorem toNat_append_field {m n : Nat} (x : BitVec m) (y : BitVec n) : (x ++ y).toNat = x.toNat * 2 ^ n + y.toNat := by
  rw [BitVec.toNat_append, ← Nat.shiftLeft_add_eq_or_of_lt y.isLt, Nat.shiftLeft_eq]

theorem toNat_encodeN (opc : BitVec 4) : (encodeN opc).toNat = opc.toNat :=
  (toNat_append_field 0#28 opc).trans (by simp)

theorem toNat_encodeL (opc : BitVec 4) (klen nlen : Fin 256) :
    (encodeL opc klen nlen).toNat = nlen.val * 2 ^ 12 + klen.val * 2 ^ 4 + opc.toNat := by
  refine (toNat_append_field (0#12 ++ BitVec.ofFin (w := 8) nlen ++ BitVec.ofFin (w := 8) klen) opc).trans ?_
  simp only [toNat_append_field, BitVec.toNat_ofFin, BitVec.toNat_ofNat]
  omega

theorem toNat_encodeQ (opc : BitVec 4) (a b c d : Fin 16) :
    (encodeQ opc a b c d).toNat = d.val * 2 ^ 16 + c.val * 2 ^ 12 + b.val * 2 ^ 8 + a.val * 2 ^ 4 + opc.toNat := by
  refine (toNat_append_field
    (0#12 ++ BitVec.ofFin (w := 4) d ++ BitVec.ofFin (w := 4) c ++ BitVec.ofFin (w := 4) b ++ BitVec.ofFin (w := 4) a) opc).trans ?_
  simp only [toNat_append_field, BitVec.toNat_ofFin, BitVec.toNat_ofNat]
  omega

/-- `decodeN` answers a command exactly when the reserved field is zero (R76). -/
theorem decodeN_eq_ok {cmd : Word} {i j : Instr} : decodeN cmd i = .ok j ↔ Cmd.rsvdN cmd = 0 ∧ i = j := by
  unfold decodeN; split <;> simp_all

/-- `decodeLQ` answers a command exactly when the reserved field is zero (R76). -/
theorem decodeLQ_eq_ok {cmd : Word} {i j : Instr} : decodeLQ cmd i = .ok j ↔ Cmd.rsvdLQ cmd = 0 ∧ i = j := by
  unfold decodeLQ; split <;> simp_all

/-- What a word decodes to: everything the decoder can answer (R78). -/
theorem decode_eq_ok {cmd : Word} {i : Instr} :
    decode cmd = .ok i ↔
      ((Cmd.opc cmd).toNat = 1 ∧ Cmd.rsvdLQ cmd = 0 ∧ .init (Cmd.klen cmd) (Cmd.nlen cmd) = i) ∨
      ((Cmd.opc cmd).toNat = 2 ∧ Cmd.rsvdN cmd = 0 ∧ .setPos = i) ∨
      ((Cmd.opc cmd).toNat = 3 ∧ Cmd.rsvdN cmd = 0 ∧ .getPos = i) ∨
      ((Cmd.opc cmd).toNat = 4 ∧ Cmd.rsvdN cmd = 0 ∧ .genBlock = i) ∨
      ((Cmd.opc cmd).toNat = 5 ∧ Cmd.rsvdLQ cmd = 0 ∧ .qround (Cmd.ia cmd) (Cmd.ib cmd) (Cmd.ic cmd) (Cmd.id cmd) = i) ∨
      ((Cmd.opc cmd).toNat = 6 ∧ Cmd.rsvdN cmd = 0 ∧ .dround = i) ∨
      ((Cmd.opc cmd).toNat = 7 ∧ Cmd.rsvdN cmd = 0 ∧ .permute = i) ∨
      ((Cmd.opc cmd).toNat = 8 ∧ Cmd.rsvdN cmd = 0 ∧ .getInfo = i) := by
  unfold decode
  split <;> simp_all [decodeN_eq_ok, decodeLQ_eq_ok]

/-- A word decodes to some command exactly when it is legal (R77). -/
theorem decode_ok_iff_legal (cmd : Word) : (∃ i, decode cmd = .ok i) ↔ LegalCommand cmd := by
  have hopc : ∀ k : BitVec 4, Cmd.opc cmd = k ↔ (Cmd.opc cmd).toNat = k.toNat := fun k => BitVec.toNat_inj.symm
  simp only [decode_eq_ok, LegalCommand, ne_eq, hopc]
  constructor
  · rintro ⟨i, h⟩
    rcases h with h | h | h | h | h | h | h | h <;> simp [h.1, h.2.1]
  · rintro ⟨h1, h8, h⟩
    have : (Cmd.opc cmd).toNat = 1 ∨ (Cmd.opc cmd).toNat = 2 ∨ (Cmd.opc cmd).toNat = 3 ∨ (Cmd.opc cmd).toNat = 4 ∨
      (Cmd.opc cmd).toNat = 5 ∨ (Cmd.opc cmd).toNat = 6 ∨ (Cmd.opc cmd).toNat = 7 ∨ (Cmd.opc cmd).toNat = 8 := by omega
    rcases this with e | e | e | e | e | e | e | e <;> simp [e] at h ⊢ <;> simpa using h

/-- A word with OPC 1 or 5 and nothing above bit 19 is legal (R77). -/
theorem legalCommand_of_toNat {w : Word} (ho : w.toNat % 2 ^ 4 = 1 ∨ w.toNat % 2 ^ 4 = 5) (hr : w.toNat / 2 ^ 20 = 0) : LegalCommand w := by
  have hopc : ∀ k : BitVec 4, Cmd.opc w = k ↔ w.toNat % 2 ^ 4 = k.toNat := fun k => by
    rw [← BitVec.toNat_inj, Cmd.toNat_opc]
  have hz : Cmd.rsvdLQ w = 0 := BitVec.eq_of_toNat_eq (by rw [Cmd.toNat_rsvdLQ]; exact hr)
  simp only [LegalCommand, ne_eq, hopc, Cmd.toNat_opc]
  exact ⟨by omega, by omega, fun _ => hz, fun h1 h5 => absurd ho (by simpa using ⟨h1, h5⟩)⟩

end Sys2Proof
end

