-- ==== Sys2Proof/Laws/Operands.lean ====
section
/-! SUPPORT. The bus views are inverse to one another (spec 20_memory.md R51 to R55), and which bytes each view reads. -/

namespace Sys2Proof.Machine

/-- The bits of LE32. -/
theorem getLsbD_le32 (b0 b1 b2 b3 : Byte) (i : Nat) :
    (le32 b0 b1 b2 b3).getLsbD i =
      if i < 8 then b0.getLsbD i else if i < 16 then b1.getLsbD (i - 8) else if i < 24 then b2.getLsbD (i - 16)
      else b3.getLsbD (i - 24) := by
  change (b3 ++ b2 ++ b1 ++ b0 : BitVec (8 + 8 + 8 + 8)).getLsbD i = _
  simp only [BitVec.getLsbD_append]
  repeat' split
  all_goals first | (exfalso; omega) | congr 1

/-- The bits of a concatenation of words. -/
theorem getLsbD_concatWords (hi lo : Word) (i : Nat) :
    (concatWords hi lo).getLsbD i = if i < 32 then lo.getLsbD i else hi.getLsbD (i - 32) := by
  change (hi ++ lo : BitVec (32 + 32)).getLsbD i = _
  rw [BitVec.getLsbD_append]

/-- Byte j of LE32 is its j-th argument. -/
theorem wordByte_le32 (b0 b1 b2 b3 : Byte) :
    wordByte (le32 b0 b1 b2 b3) 0 = b0 ∧ wordByte (le32 b0 b1 b2 b3) 1 = b1 ∧
    wordByte (le32 b0 b1 b2 b3) 2 = b2 ∧ wordByte (le32 b0 b1 b2 b3) 3 = b3 := by
  refine ⟨?_, ?_, ?_, ?_⟩ <;> refine BitVec.eq_of_getLsbD_eq fun i hi => ?_ <;>
    simp only [wordByte, BitVec.getLsbD_extractLsb', getLsbD_le32, hi, decide_true, Bool.true_and]
  · simp [hi]
  · rw [if_neg (by omega), if_pos (by omega)]; congr 1; omega
  · rw [if_neg (by omega), if_neg (by omega), if_pos (by omega)]; congr 1; omega
  · rw [if_neg (by omega), if_neg (by omega), if_neg (by omega)]; congr 1; omega

/-- A word is LE32 of its bytes. -/
@[simp] theorem le32_wordByte (w : Word) : le32 (wordByte w 0) (wordByte w 1) (wordByte w 2) (wordByte w 3) = w := by
  refine BitVec.eq_of_getLsbD_eq fun i hi => ?_
  simp only [getLsbD_le32, wordByte, BitVec.getLsbD_extractLsb']
  repeat' split
  · rw [show decide (i < 8) = true by simp; omega, Bool.true_and]; congr 1; omega
  · rw [show decide (i - 8 < 8) = true by simp; omega, Bool.true_and]; congr 1; omega
  · rw [show decide (i - 16 < 8) = true by simp; omega, Bool.true_and]; congr 1; omega
  · rw [show decide (i - 24 < 8) = true by simp; omega, Bool.true_and]; congr 1; omega

/-! One byte or word of each bus view (R51, R54, R84) -/

theorem getElem_wordsToBus (v : WordVec) (k : Nat) (h : k < 64) : (wordsToBus v)[k] = wordByte v[k / 4] (k % 4) := by
  simp [wordsToBus]

theorem getElem_busWords (b : Bus) (i : Fin 16) : (busWords b)[i] = busWord b i := by simp [busWords]

theorem getElem_positionToBus (n : Position) (k : Nat) (h : k < 64) :
    (positionToBus n)[k] = if k < 8 then positionByte n k else 0 := by simp [positionToBus]

theorem getElem_wordToBus (w : Word) (k : Nat) (h : k < 64) : (wordToBus w)[k] = if k < 4 then wordByte w k else 0 := by
  simp [wordToBus]

theorem getElem_busKey (b : Bus) (i : Nat) (h : i < 8) :
    (busKey b)[i] = le32 b[4 * i] b[4 * i + 1] b[4 * i + 2] b[4 * i + 3] := by simp [busKey]

theorem getElem_busNonce (b : Bus) (i : Nat) (h : i < 2) :
    (busNonce b)[i] = le32 b[32 + 4 * i] b[32 + 4 * i + 1] b[32 + 4 * i + 2] b[32 + 4 * i + 3] := by simp [busNonce]

@[simp] theorem getElem_zeroBus (k : Nat) (h : k < 64) : zeroBus[k] = 0 := by simp [zeroBus]

/-- DOUTW(i) after writing the vector v to DOUT is v[i]. -/
@[simp] theorem busWord_wordsToBus (v : WordVec) (i : Fin 16) : busWord (wordsToBus v) i = v[i] := by
  have h0 : (4 * i.val) / 4 = i.val := by omega
  have h1 : (4 * i.val + 1) / 4 = i.val := by omega
  have h2 : (4 * i.val + 2) / 4 = i.val := by omega
  have h3 : (4 * i.val + 3) / 4 = i.val := by omega
  have m0 : (4 * i.val) % 4 = 0 := by omega
  have m1 : (4 * i.val + 1) % 4 = 1 := by omega
  have m2 : (4 * i.val + 2) % 4 = 2 := by omega
  have m3 : (4 * i.val + 3) % 4 = 3 := by omega
  simp only [busWord, wordsToBus, Vector.getElem_ofFn, h0, h1, h2, h3, m0, m1, m2, m3, le32_wordByte, Fin.getElem_fin]

@[simp] theorem busWords_wordsToBus (v : WordVec) : busWords (wordsToBus v) = v := by
  ext i hi
  simp [busWords]

/-- A byte of a bus is a byte of its word (R55). -/
theorem wordByte_busWord (b : Bus) (k : Nat) (hk : k < 64) : wordByte (busWord b ⟨k / 4, by omega⟩) (k % 4) = b[k] := by
  obtain ⟨h0, h1, h2, h3⟩ := wordByte_le32 b[4 * (k / 4)] b[4 * (k / 4) + 1] b[4 * (k / 4) + 2] b[4 * (k / 4) + 3]
  have : k % 4 = 0 ∨ k % 4 = 1 ∨ k % 4 = 2 ∨ k % 4 = 3 := by omega
  simp only [busWord]
  rcases this with h | h | h | h <;> rw [h] <;> simp only [h0, h1, h2, h3] <;> congr 1 <;> omega

@[simp] theorem wordsToBus_busWords (b : Bus) : wordsToBus (busWords b) = b := by
  ext k hk : 1
  simp only [wordsToBus, busWords, Vector.getElem_ofFn]
  exact wordByte_busWord b k hk

/-- The bytes of a position are the bytes of its two halves (R54: bytes 0..3 carry the low word). -/
theorem positionByte_halves (n : Position) (j : Nat) (hj : j < 4) :
    positionByte n j = wordByte (n.extractLsb' 0 32) j ∧ positionByte n (j + 4) = wordByte (n.extractLsb' 32 32) j := by
  constructor <;> refine BitVec.eq_of_getLsbD_eq fun i hi => ?_ <;>
    simp only [positionByte, wordByte, BitVec.getLsbD_extractLsb', hi, decide_true, Bool.true_and,
      show 8 * j + i < 32 by omega]
  · simp
  · congr 1; omega

/-- A position is the concatenation of its halves. -/
@[simp] theorem concatWords_halves (n : Position) : concatWords (n.extractLsb' 32 32) (n.extractLsb' 0 32) = n := by
  refine BitVec.eq_of_getLsbD_eq fun i hi => ?_
  rw [getLsbD_concatWords]
  split
  · rename_i h; simp [h]
  · rw [BitVec.getLsbD_extractLsb', show decide (i - 32 < 32) = true by simp; omega, Bool.true_and]; congr 1; omega

/-- LE64 of the bytes of a position is the position. -/
@[simp] theorem le64_positionByte (n : Position) :
    le64 (positionByte n 0) (positionByte n 1) (positionByte n 2) (positionByte n 3) (positionByte n 4) (positionByte n 5)
      (positionByte n 6) (positionByte n 7) = n := by
  rw [(positionByte_halves n 0 (by omega)).1, (positionByte_halves n 1 (by omega)).1, (positionByte_halves n 2 (by omega)).1,
    (positionByte_halves n 3 (by omega)).1, (positionByte_halves n 0 (by omega)).2, (positionByte_halves n 1 (by omega)).2,
    (positionByte_halves n 2 (by omega)).2, (positionByte_halves n 3 (by omega)).2, le64, le32_wordByte, le32_wordByte,
    concatWords_halves]

/-- SET_POS's view of the bus undoes GET_POS's (R54). -/
@[simp] theorem busPosition_positionToBus (n : Position) : busPosition (positionToBus n) = n := by
  simp [busPosition, positionToBus]

/-- A position on a bus is `word1 ‖ word0` (R54, R55). -/
theorem busPosition_eq_words (b : Bus) : busPosition b = concatWords (busWord b 1) (busWord b 0) := rfl

@[simp] theorem toNat_concatWords (hi lo : Word) : (concatWords hi lo).toNat = hi.toNat * 2 ^ 32 + lo.toNat := by
  have h : (concatWords hi lo).toNat = hi.toNat <<< 32 ||| lo.toNat := BitVec.toNat_append hi lo
  rw [h, ← Nat.shiftLeft_add_eq_or_of_lt lo.isLt, Nat.shiftLeft_eq]

/-- SET_POS's operand depends on DIN[0..7] alone (R84). -/
theorem busPosition_congr {b b' : Bus} (h : ∀ k (hk : k < 8), b[k] = b'[k]) : busPosition b = busPosition b' := by
  simp only [busPosition, h 0, h 1, h 2, h 3, h 4, h 5, h 6, h 7, Nat.reduceLT]

/-- INIT's key operand depends on DIN[0..31] alone (R84). -/
theorem busKey_congr {b b' : Bus} (h : ∀ k (hk : k < 40), b[k] = b'[k]) : busKey b = busKey b' := by
  ext i hi : 1
  simp only [busKey, Vector.getElem_ofFn]
  rw [h (4 * i) (by omega), h (4 * i + 1) (by omega), h (4 * i + 2) (by omega), h (4 * i + 3) (by omega)]

/-- INIT's nonce operand depends on DIN[32..39] alone (R84). -/
theorem busNonce_congr {b b' : Bus} (h : ∀ k (hk : k < 40), b[k] = b'[k]) : busNonce b = busNonce b' := by
  ext i hi : 1
  simp only [busNonce, Vector.getElem_ofFn]
  rw [h (32 + 4 * i) (by omega), h (32 + 4 * i + 1) (by omega), h (32 + 4 * i + 2) (by omega), h (32 + 4 * i + 3) (by omega)]

end Sys2Proof.Machine
end

