-- ==== Sys2Proof/Laws/State.lean ====
section
/-! SUPPORT. What each update of the state does to each field: one lemma per field and update, so that no proof unfolds a record
update. -/

namespace Sys2Proof.Machine.State

variable (s : State)

/-! `answer` -/

@[simp] theorem answer_config (code : Status) (out : Bus) : (s.answer code out).config = s.config := rfl
@[simp] theorem answer_key (code : Status) (out : Bus) : (s.answer code out).key = s.key := rfl
@[simp] theorem answer_nonce (code : Status) (out : Bus) : (s.answer code out).nonce = s.nonce := rfl
@[simp] theorem answer_ctrLo (code : Status) (out : Bus) : (s.answer code out).ctrLo = s.ctrLo := rfl
@[simp] theorem answer_ctrHi (code : Status) (out : Bus) : (s.answer code out).ctrHi = s.ctrHi := rfl
@[simp] theorem answer_keyed (code : Status) (out : Bus) : (s.answer code out).keyed = s.keyed := rfl
@[simp] theorem answer_dout (code : Status) (out : Bus) : (s.answer code out).dout = out := rfl
@[simp] theorem answer_din (code : Status) (out : Bus) : (s.answer code out).din = s.din := rfl
@[simp] theorem answer_rsp (code : Status) (out : Bus) : (s.answer code out).rsp = some (responseWord s.keyed code) := rfl
@[simp] theorem answer_pending (code : Status) (out : Bus) : (s.answer code out).pending = s.pending := rfl

/-! `respond` -/

@[simp] theorem respond_config (out : Bus) : (s.respond out).config = s.config := rfl
@[simp] theorem respond_key (out : Bus) : (s.respond out).key = s.key := rfl
@[simp] theorem respond_nonce (out : Bus) : (s.respond out).nonce = s.nonce := rfl
@[simp] theorem respond_ctrLo (out : Bus) : (s.respond out).ctrLo = s.ctrLo := rfl
@[simp] theorem respond_ctrHi (out : Bus) : (s.respond out).ctrHi = s.ctrHi := rfl
@[simp] theorem respond_keyed (out : Bus) : (s.respond out).keyed = s.keyed := rfl
@[simp] theorem respond_dout (out : Bus) : (s.respond out).dout = out := rfl
@[simp] theorem respond_din (out : Bus) : (s.respond out).din = s.din := rfl
@[simp] theorem respond_rsp (out : Bus) : (s.respond out).rsp = some (responseWord s.keyed .ok) := rfl
@[simp] theorem respond_pending (out : Bus) : (s.respond out).pending = s.pending := rfl

/-! `raise` -/

@[simp] theorem raise_config (e : Status) : (s.raise e).config = s.config := rfl
@[simp] theorem raise_key (e : Status) : (s.raise e).key = s.key := rfl
@[simp] theorem raise_nonce (e : Status) : (s.raise e).nonce = s.nonce := rfl
@[simp] theorem raise_ctrLo (e : Status) : (s.raise e).ctrLo = s.ctrLo := rfl
@[simp] theorem raise_ctrHi (e : Status) : (s.raise e).ctrHi = s.ctrHi := rfl
@[simp] theorem raise_keyed (e : Status) : (s.raise e).keyed = s.keyed := rfl
@[simp] theorem raise_dout (e : Status) : (s.raise e).dout = zeroBus := rfl
@[simp] theorem raise_din (e : Status) : (s.raise e).din = s.din := rfl
@[simp] theorem raise_rsp (e : Status) : (s.raise e).rsp = some (responseWord s.keyed e) := rfl
@[simp] theorem raise_pending (e : Status) : (s.raise e).pending = s.pending := rfl

/-! `setCtr` -/

@[simp] theorem setCtr_config (n : Position) : (s.setCtr n).config = s.config := rfl
@[simp] theorem setCtr_key (n : Position) : (s.setCtr n).key = s.key := rfl
@[simp] theorem setCtr_nonce (n : Position) : (s.setCtr n).nonce = s.nonce := rfl
@[simp] theorem setCtr_ctrLo (n : Position) : (s.setCtr n).ctrLo = n.extractLsb' 0 32 := rfl
@[simp] theorem setCtr_ctrHi (n : Position) : (s.setCtr n).ctrHi = n.extractLsb' 32 32 := rfl
@[simp] theorem setCtr_keyed (n : Position) : (s.setCtr n).keyed = s.keyed := rfl
@[simp] theorem setCtr_dout (n : Position) : (s.setCtr n).dout = s.dout := rfl
@[simp] theorem setCtr_din (n : Position) : (s.setCtr n).din = s.din := rfl
@[simp] theorem setCtr_rsp (n : Position) : (s.setCtr n).rsp = s.rsp := rfl
@[simp] theorem setCtr_pending (n : Position) : (s.setCtr n).pending = s.pending := rfl

/-! `load` -/

@[simp] theorem load_config (k : Vector Word 8) (n : Vector Word 2) : (s.load k n).config = s.config := rfl
@[simp] theorem load_key (k : Vector Word 8) (n : Vector Word 2) : (s.load k n).key = k := rfl
@[simp] theorem load_nonce (k : Vector Word 8) (n : Vector Word 2) : (s.load k n).nonce = n := rfl
@[simp] theorem load_ctrLo (k : Vector Word 8) (n : Vector Word 2) : (s.load k n).ctrLo = 0 := rfl
@[simp] theorem load_ctrHi (k : Vector Word 8) (n : Vector Word 2) : (s.load k n).ctrHi = 0 := rfl
@[simp] theorem load_keyed (k : Vector Word 8) (n : Vector Word 2) : (s.load k n).keyed = true := rfl
@[simp] theorem load_dout (k : Vector Word 8) (n : Vector Word 2) : (s.load k n).dout = s.dout := rfl
@[simp] theorem load_din (k : Vector Word 8) (n : Vector Word 2) : (s.load k n).din = s.din := rfl
@[simp] theorem load_rsp (k : Vector Word 8) (n : Vector Word 2) : (s.load k n).rsp = s.rsp := rfl
@[simp] theorem load_pending (k : Vector Word 8) (n : Vector Word 2) : (s.load k n).pending = s.pending := rfl

/-! `accept` -/

@[simp] theorem accept_config (d : Bus) (rest : List PortEvent) : (s.accept d rest).config = s.config := rfl
@[simp] theorem accept_key (d : Bus) (rest : List PortEvent) : (s.accept d rest).key = s.key := rfl
@[simp] theorem accept_nonce (d : Bus) (rest : List PortEvent) : (s.accept d rest).nonce = s.nonce := rfl
@[simp] theorem accept_ctrLo (d : Bus) (rest : List PortEvent) : (s.accept d rest).ctrLo = s.ctrLo := rfl
@[simp] theorem accept_ctrHi (d : Bus) (rest : List PortEvent) : (s.accept d rest).ctrHi = s.ctrHi := rfl
@[simp] theorem accept_keyed (d : Bus) (rest : List PortEvent) : (s.accept d rest).keyed = s.keyed := rfl
@[simp] theorem accept_dout (d : Bus) (rest : List PortEvent) : (s.accept d rest).dout = s.dout := rfl
@[simp] theorem accept_din (d : Bus) (rest : List PortEvent) : (s.accept d rest).din = d := rfl
@[simp] theorem accept_rsp (d : Bus) (rest : List PortEvent) : (s.accept d rest).rsp = s.rsp := rfl
@[simp] theorem accept_pending (d : Bus) (rest : List PortEvent) : (s.accept d rest).pending = rest := rfl

/-! `present` -/

@[simp] theorem present_config (cmd : Word) (d : Bus) : (s.present cmd d).config = s.config := rfl
@[simp] theorem present_key (cmd : Word) (d : Bus) : (s.present cmd d).key = s.key := rfl
@[simp] theorem present_nonce (cmd : Word) (d : Bus) : (s.present cmd d).nonce = s.nonce := rfl
@[simp] theorem present_ctrLo (cmd : Word) (d : Bus) : (s.present cmd d).ctrLo = s.ctrLo := rfl
@[simp] theorem present_ctrHi (cmd : Word) (d : Bus) : (s.present cmd d).ctrHi = s.ctrHi := rfl
@[simp] theorem present_keyed (cmd : Word) (d : Bus) : (s.present cmd d).keyed = s.keyed := rfl
@[simp] theorem present_dout (cmd : Word) (d : Bus) : (s.present cmd d).dout = s.dout := rfl
@[simp] theorem present_din (cmd : Word) (d : Bus) : (s.present cmd d).din = s.din := rfl
@[simp] theorem present_rsp (cmd : Word) (d : Bus) : (s.present cmd d).rsp = s.rsp := rfl
@[simp] theorem present_pending (cmd : Word) (d : Bus) : (s.present cmd d).pending = .command cmd d :: s.pending := rfl

/-! `resetBlock` -/

@[simp] theorem resetBlock_config (rest : List PortEvent) : (s.resetBlock rest).config = s.config := rfl
@[simp] theorem resetBlock_key (rest : List PortEvent) : (s.resetBlock rest).key = Vector.replicate 8 0 := rfl
@[simp] theorem resetBlock_nonce (rest : List PortEvent) : (s.resetBlock rest).nonce = Vector.replicate 2 0 := rfl
@[simp] theorem resetBlock_ctrLo (rest : List PortEvent) : (s.resetBlock rest).ctrLo = 0 := rfl
@[simp] theorem resetBlock_ctrHi (rest : List PortEvent) : (s.resetBlock rest).ctrHi = 0 := rfl
@[simp] theorem resetBlock_keyed (rest : List PortEvent) : (s.resetBlock rest).keyed = false := rfl
@[simp] theorem resetBlock_dout (rest : List PortEvent) : (s.resetBlock rest).dout = zeroBus := rfl
@[simp] theorem resetBlock_din (rest : List PortEvent) : (s.resetBlock rest).din = zeroBus := rfl
@[simp] theorem resetBlock_rsp (rest : List PortEvent) : (s.resetBlock rest).rsp = none := rfl
@[simp] theorem resetBlock_pending (rest : List PortEvent) : (s.resetBlock rest).pending = rest := rfl

/-! The reset state of an instance -/

variable (c : Config)

@[simp] theorem resetFor_config : (resetFor c).config = c := rfl
@[simp] theorem resetFor_keyed : (resetFor c).keyed = false := rfl
@[simp] theorem resetFor_dout : (resetFor c).dout = zeroBus := rfl
@[simp] theorem resetFor_rsp : (resetFor c).rsp = none := rfl
@[simp] theorem resetFor_pending : (resetFor c).pending = [] := rfl

end Sys2Proof.Machine.State
end

