-- ==== Sys2Proof/Laws/Ops.lean ====
section
/-! SUPPORT. The response word's fields (spec 30_encoding.md R80), the counter view (10_state.md R25) and the words that hold a value
(R35). -/

namespace Sys2Proof.Machine

/-! The response word -/

@[simp] theorem rspCode_responseWord (k : Bool) (c : Status) : rspCode (responseWord k c) = statusCode c := by
  cases k <;> cases c <;> decide

@[simp] theorem rspKeyed_responseWord (k : Bool) (c : Status) : rspKeyed (responseWord k c) = k := by
  cases k <;> cases c <;> decide

theorem responseWord_high (k : Bool) (c : Status) : (responseWord k c).extractLsb' 5 27 = 0 := by
  cases k <;> cases c <;> decide

theorem responseWord_keyed_ok : responseWord true .ok = 0x10 := by decide
theorem responseWord_unkeyed_ok : responseWord false .ok = 0x00 := by decide

theorem statusCode_inj {c d : Status} : statusCode c = statusCode d ↔ c = d := by
  cases c <;> cases d <;> decide

theorem statusCode_le (c : Status) : statusCode c ≤ 4 := by cases c <;> decide

/-! The counter view -/

namespace State

variable (s : State)

@[simp] theorem ctr_setCtr (n : Position) : (s.setCtr n).ctr = n := concatWords_halves n

@[simp] theorem ctr_load (k : Vector Word 8) (n : Vector Word 2) : (s.load k n).ctr = 0 := by
  change concatWords 0 0 = 0; decide

@[simp] theorem ctr_answer (c : Status) (out : Bus) : (s.answer c out).ctr = s.ctr := (rfl)
@[simp] theorem ctr_respond (out : Bus) : (s.respond out).ctr = s.ctr := (rfl)
@[simp] theorem ctr_raise (e : Status) : (s.raise e).ctr = s.ctr := (rfl)
@[simp] theorem ctr_accept (d : Bus) (rest : List PortEvent) : (s.accept d rest).ctr = s.ctr := (rfl)
@[simp] theorem ctr_present (w : Word) (d : Bus) : (s.present w d).ctr = s.ctr := (rfl)

@[simp] theorem matrix_answer (c : Status) (out : Bus) : (s.answer c out).matrix = s.matrix := (rfl)
@[simp] theorem matrix_respond (out : Bus) : (s.respond out).matrix = s.matrix := (rfl)
@[simp] theorem matrix_raise (e : Status) : (s.raise e).matrix = s.matrix := (rfl)
@[simp] theorem matrix_accept (d : Bus) (rest : List PortEvent) : (s.accept d rest).matrix = s.matrix := (rfl)
@[simp] theorem matrix_present (w : Word) (d : Bus) : (s.present w d).matrix = s.matrix := (rfl)

@[simp] theorem word?_answer (c : Status) (out : Bus) (i : Fin 16) : (s.answer c out).word? i = s.word? i := (rfl)
@[simp] theorem word?_respond (out : Bus) (i : Fin 16) : (s.respond out).word? i = s.word? i := (rfl)
@[simp] theorem word?_raise (e : Status) (i : Fin 16) : (s.raise e).word? i = s.word? i := (rfl)
@[simp] theorem word?_accept (d : Bus) (rest : List PortEvent) (i : Fin 16) : (s.accept d rest).word? i = s.word? i := (rfl)

/-- ctr as a number: S[9] is the high half (R24, R25). -/
theorem toNat_ctr : s.ctr.toNat = s.ctrHi.toNat * 2 ^ 32 + s.ctrLo.toNat := toNat_concatWords _ _

/-- Two counter pairs with the same view are the same pair. -/
theorem ctr_inj {s t : State} : s.ctr = t.ctr ↔ s.ctrLo = t.ctrLo ∧ s.ctrHi = t.ctrHi := by
  refine ⟨fun h => ?_, fun h => by rw [ctr, ctr, h.1, h.2]⟩
  have h := congrArg BitVec.toNat h
  rw [toNat_ctr, toNat_ctr] at h
  have := s.ctrLo.isLt; have := t.ctrLo.isLt
  exact ⟨BitVec.eq_of_toNat_eq (by omega), BitVec.eq_of_toNat_eq (by omega)⟩

/-- Writing ctr twice leaves the second value. -/
@[simp] theorem setCtr_setCtr (m n : Position) : (s.setCtr m).setCtr n = s.setCtr n := rfl

/-- The counter holds what was written to it. -/
theorem setCtr_ctr : s.setCtr s.ctr = s := by
  have h := (ctr_inj (s := s.setCtr s.ctr) (t := s)).1 (by simp)
  simp only [setCtr_ctrLo, setCtr_ctrHi] at h
  simp only [setCtr, h.1, h.2]

/-- The matrix depends on the key, nonce and counter words alone (R20 to R24). -/
theorem matrix_congr {s t : State} (hk : t.key = s.key) (hn : t.nonce = s.nonce) (hc : t.ctr = s.ctr) :
    t.matrix = s.matrix := by
  obtain ⟨hl, hh⟩ := ctr_inj.1 hc
  simp only [matrix, hk, hn, hl, hh]

/-- While KEYED = 1 every word holds a value (R28). -/
theorem word?_of_keyed {s : State} (h : s.keyed = true) (i : Fin 16) : s.word? i = some s.matrix[i] := by
  simp [word?, h]

/-- Two keyed states with the same words have the same key, nonce and counter. -/
theorem eq_of_matrix {s t : State} (h : ∀ i : Fin 16, t.matrix[i] = s.matrix[i]) :
    t.key = s.key ∧ t.nonce = s.nonce ∧ t.ctrLo = s.ctrLo ∧ t.ctrHi = s.ctrHi := by
  refine ⟨?_, ?_, h 8, h 9⟩
  · ext i hi : 1
    have : i = 0 ∨ i = 1 ∨ i = 2 ∨ i = 3 ∨ i = 4 ∨ i = 5 ∨ i = 6 ∨ i = 7 := by omega
    rcases this with rfl | rfl | rfl | rfl | rfl | rfl | rfl | rfl
    exacts [h 1, h 2, h 3, h 4, h 11, h 12, h 13, h 14]
  · ext i hi : 1
    have : i = 0 ∨ i = 1 := by omega
    rcases this with rfl | rfl
    exacts [h 6, h 7]

end State

end Sys2Proof.Machine
end

