-- ==== Sys2Proof/Laws/Exec.lean ====
section
/-! SUPPORT. What a command can do, said once: one lemma per meaning, and the inversion of `exec` every invariant proof cites. -/

namespace Sys2Proof.Machine

variable {s : State}

theorem toNat_exhaustedPosition : exhaustedPosition.toNat = 2 ^ 64 - 1 := rfl

/-- ctr is exhausted exactly when it is the largest 64-bit value (R124). -/
theorem ctr_eq_exhausted_iff : s.ctr = exhaustedPosition ↔ s.ctr.toNat = 2 ^ 64 - 1 := by
  rw [← BitVec.toNat_inj, toNat_exhaustedPosition]

/-- Below the last value the counter advances by one as a number (R123). -/
theorem toNat_ctr_succ (h : s.ctr ≠ exhaustedPosition) : (s.ctr + 1).toNat = s.ctr.toNat + 1 := by
  have := s.ctr.isLt
  have := mt ctr_eq_exhausted_iff.2 h
  have h1 : (1 : Position).toNat = 1 := rfl
  rw [BitVec.toNat_add, h1]
  omega

/-- A counter of n is not exhausted while n is below the last value. -/
theorem ofNat_ne_exhausted {n : Nat} (h : n < 2 ^ 64 - 1) : BitVec.ofNat 64 n ≠ exhaustedPosition := by
  intro e
  have e := congrArg BitVec.toNat e
  rw [toNat_exhaustedPosition, BitVec.toNat_ofNat, Nat.mod_eq_of_lt (by omega)] at e
  omega

theorem execInit_ok (s : State) : execInit 32 8 s = .next ((s.load (busKey s.din) (busNonce s.din)).respond zeroBus) := rfl

theorem execInit_badLength {klen nlen : Fin 256} (h : klen.val ≠ 32 ∨ nlen.val ≠ 8) :
    execInit klen nlen s = .next (s.raise .invalidLength) := if_pos h

theorem execSetPos_ok (h : s.keyed = true) :
    execSetPos s = .next ((s.setCtr (busPosition s.din)).respond zeroBus) := by simp [execSetPos, h]

theorem execSetPos_unkeyed (h : s.keyed = false) : execSetPos s = .next (s.raise .notInitialised) := if_pos h

theorem execGetPos_ok (h : s.keyed = true) : execGetPos s = .next (s.respond (positionToBus s.ctr)) := by
  simp [execGetPos, h]

theorem execGetPos_unkeyed (h : s.keyed = false) : execGetPos s = .next (s.raise .notInitialised) := if_pos h

theorem execGenBlock_ok (h : s.keyed = true) (hc : s.ctr ≠ exhaustedPosition) :
    execGenBlock s = .next ((s.setCtr (s.ctr + 1)).respond (block s.config.doubleRounds s.matrix)) := by
  simp [execGenBlock, h, hc]

theorem execGenBlock_unkeyed (h : s.keyed = false) : execGenBlock s = .next (s.raise .notInitialised) := if_pos h

theorem execGenBlock_exhausted (h : s.keyed = true) (hc : s.ctr = exhaustedPosition) :
    execGenBlock s = .next (s.raise .counterExhausted) := by simp [execGenBlock, h, hc]

/-- What makes each command fail (R200 to R203, R207), decoding apart. -/
inductive Raises : Instr → State → Status → Prop where
  | length {klen nlen : Fin 256} {s : State} : klen.val ≠ 32 ∨ nlen.val ≠ 8 → Raises (.init klen nlen) s .invalidLength
  | setPos {s : State} : s.keyed = false → Raises .setPos s .notInitialised
  | getPos {s : State} : s.keyed = false → Raises .getPos s .notInitialised
  | genBlock {s : State} : s.keyed = false → Raises .genBlock s .notInitialised
  | exhausted {s : State} : s.keyed = true → s.ctr = exhaustedPosition → Raises .genBlock s .counterExhausted

theorem Raises.ne_ok {i : Instr} {e : Status} (h : Raises i s e) : e ≠ .ok := by cases h <;> decide

/-- The block state a command that completes leaves, before its response (R26, R58). -/
inductive Writes : Instr → State → State → Prop where
  | init {s : State} : Writes (.init 32 8) s (s.load (busKey s.din) (busNonce s.din))
  | setPos {s : State} : s.keyed = true → Writes .setPos s (s.setCtr (busPosition s.din))
  | getPos {s : State} : s.keyed = true → Writes .getPos s s
  | genBlock {s : State} : s.keyed = true → s.ctr ≠ exhaustedPosition → Writes .genBlock s (s.setCtr (s.ctr + 1))
  | qround {a b c d : Fin 16} {s : State} : Writes (.qround a b c d) s s
  | dround {s : State} : Writes .dround s s
  | permute {s : State} : Writes .permute s s
  | getInfo {s : State} : Writes .getInfo s s

/-- Every command ends in one of two ways: it raises, or it writes its block state and responds (R14, R208). -/
theorem exec_cases (i : Instr) (s : State) :
    (∃ e, Raises i s e ∧ exec i s = .next (s.raise e)) ∨
    (∃ u out, Writes i s u ∧ exec i s = .next (u.respond out)) := by
  cases i with
  | init klen nlen =>
    by_cases h : klen.val ≠ 32 ∨ nlen.val ≠ 8
    · exact .inl ⟨_, .length h, execInit_badLength h⟩
    · have hk : klen = 32 := Fin.ext (by simp at h ⊢; exact h.1)
      have hn : nlen = 8 := Fin.ext (by simp at h ⊢; exact h.2)
      subst hk hn
      exact .inr ⟨_, _, .init, execInit_ok s⟩
  | setPos =>
    cases h : s.keyed
    · exact .inl ⟨_, .setPos h, execSetPos_unkeyed h⟩
    · exact .inr ⟨_, _, .setPos h, execSetPos_ok h⟩
  | getPos =>
    cases h : s.keyed
    · exact .inl ⟨_, .getPos h, execGetPos_unkeyed h⟩
    · exact .inr ⟨_, _, .getPos h, execGetPos_ok h⟩
  | genBlock =>
    cases h : s.keyed
    · exact .inl ⟨_, .genBlock h, execGenBlock_unkeyed h⟩
    · by_cases hc : s.ctr = exhaustedPosition
      · exact .inl ⟨_, .exhausted h hc, execGenBlock_exhausted h hc⟩
      · exact .inr ⟨_, _, .genBlock h hc, execGenBlock_ok h hc⟩
  | qround a b c d => exact .inr ⟨_, _, .qround, rfl⟩
  | dround => exact .inr ⟨_, _, .dround, rfl⟩
  | permute => exact .inr ⟨_, _, .permute, rfl⟩
  | getInfo => exact .inr ⟨_, _, .getInfo, rfl⟩

/-- The next state of a command: the inversion of `exec`. -/
theorem exec_next {i : Instr} {t : State} (h : exec i s = .next t) :
    (∃ e, Raises i s e ∧ t = s.raise e) ∨ (∃ u out, Writes i s u ∧ t = u.respond out) := by
  have := exec_cases i s
  rw [h] at this
  simpa using this

/-- A command raises and completes never both. -/
theorem Writes.not_raises {i : Instr} {u : State} {e : Status} (hw : Writes i s u) : ¬ Raises i s e := by
  intro hr
  cases hw <;> cases hr <;> simp_all

/-- A command that writes leaves the configuration, DIN and the pending events alone. -/
theorem Writes.frame {i : Instr} {u : State} (h : Writes i s u) :
    u.config = s.config ∧ u.din = s.din ∧ u.pending = s.pending := by
  cases h <;> simp

end Sys2Proof.Machine
end

