-- ==== Sys2Proof/Laws/Memory.lean ====
section
/-! SUPPORT. The host memory's laws: a write keeps the canonical form, a read after a write, and equal reads make equal memories. -/

namespace Sys2Proof.Machine.Memory

theorem wf_nil : WF [] := ⟨List.Pairwise.nil, by simp⟩

theorem WF.tail {c : Host.Cell} {m : Memory} (h : WF (c :: m)) : WF m :=
  ⟨(List.pairwise_cons.1 h.1).2, fun d hd => h.2 d (List.mem_cons_of_mem _ hd)⟩

theorem WF.lt {c d : Host.Cell} {m : Memory} (h : WF (c :: m)) (hd : d ∈ m) : c.1 < d.1 := (List.pairwise_cons.1 h.1).1 d hd

theorem WF.cons {c : Host.Cell} {m : Memory} (hm : WF m) (hlt : ∀ d ∈ m, c.1 < d.1) (hc : c.2 ≠ unlisted) : WF (c :: m) :=
  ⟨List.pairwise_cons.2 ⟨hlt, hm.1⟩, by simpa using ⟨hc, fun a b h => hm.2 (a, b) h⟩⟩

/-- A cell of one address goes before rising addresses above it. -/
theorem WF.cell_append {addr : Nat} {v : Byte} {m : Memory} (hm : WF m) (hlt : ∀ d ∈ m, addr < d.1) : WF (cell addr v ++ m) := by
  unfold cell
  split
  · exact hm
  · exact hm.cons hlt ‹_›

theorem mem_write {m : Memory} {addr : Nat} {v : Byte} {d : Host.Cell} (h : d ∈ write m addr v) : d.1 = addr ∨ d ∈ m := by
  have hcell : ∀ {d}, d ∈ cell addr v → d.1 = addr := by
    intro d hd; unfold cell at hd; split at hd <;> simp_all
  induction m with
  | nil => exact .inl (hcell h)
  | cons c m ih =>
    unfold write at h
    split at h
    · rcases List.mem_append.1 h with h | h
      exacts [.inl (hcell h), .inr h]
    · split at h
      · rcases List.mem_append.1 h with h | h
        exacts [.inl (hcell h), .inr (List.mem_cons_of_mem _ h)]
      · rcases List.mem_cons.1 h with h | h
        · exact .inr (h ▸ List.mem_cons_self ..)
        · exact (ih h).imp_right (List.mem_cons_of_mem _)

/-- A write keeps the canonical form. -/
theorem WF.write {m : Memory} (h : WF m) (addr : Nat) (v : Byte) : WF (Memory.write m addr v) := by
  induction m with
  | nil => simpa [Memory.write] using wf_nil.cell_append (addr := addr) (v := v) (by simp)
  | cons c m ih =>
    unfold Memory.write
    split
    · refine h.cell_append fun d hd => ?_
      rcases List.mem_cons.1 hd with rfl | hd
      · assumption
      · have := h.lt hd; omega
    · split
      · exact h.tail.cell_append fun d hd => by have := h.lt hd; omega
      · refine (ih h.tail).cons (fun d hd => ?_) (h.2 c (List.mem_cons_self ..))
        rcases mem_write hd with e | hd
        · change c.1 < d.1; omega
        · exact h.lt hd

/-- An address below every listed one reads as unlisted. -/
theorem read_eq_unlisted {m : Memory} {addr : Nat} (h : ∀ d ∈ m, d.1 ≠ addr) : read m addr = unlisted := by
  induction m with
  | nil => rfl
  | cons c m ih =>
    have hc := h c (List.mem_cons_self ..)
    simp only [read, if_neg (Ne.symm hc)]
    exact ih fun d hd => h d (List.mem_cons_of_mem _ hd)

theorem read_cell_append (addr : Nat) (v : Byte) (m : Memory) (a : Nat) (h : v = unlisted → read m addr = unlisted) :
    read (cell addr v ++ m) a = if a = addr then v else read m a := by
  unfold cell
  split
  · by_cases ha : a = addr
    · subst ha; simp [h ‹_›, ‹v = unlisted›]
    · simp [ha]
  · rfl

/-- Reading after a write: the written byte at its address, what was there before elsewhere. -/
theorem read_write {m : Memory} (h : WF m) (addr : Nat) (v : Byte) (a : Nat) :
    read (write m addr v) a = if a = addr then v else read m a := by
  induction m with
  | nil => simpa [write] using read_cell_append addr v [] a (fun _ => rfl)
  | cons c m ih =>
    unfold write
    split
    · refine read_cell_append addr v _ a fun _ => read_eq_unlisted fun d hd => ?_
      rcases List.mem_cons.1 hd with rfl | hd
      · exact Nat.ne_of_gt ‹_›
      · have := h.lt hd; omega
    · split
      · rename_i hne heq
        rw [read_cell_append addr v m a fun _ => read_eq_unlisted fun d hd => by have := h.lt hd; omega]
        by_cases ha : a = addr
        · simp [ha]
        · simp [ha, read, show a ≠ c.1 by omega]
      · rename_i hne hne'
        simp only [read, ih h.tail]
        by_cases ha : a = c.1
        · simp [ha, show c.1 ≠ addr by omega]
        · simp [ha]

/-- Canonical memories that read alike are equal. -/
theorem eq_of_read {m n : Memory} (hm : WF m) (hn : WF n) (h : ∀ a, read m a = read n a) : m = n := by
  induction m generalizing n with
  | nil =>
    cases n with
    | nil => rfl
    | cons d n =>
      have := h d.1
      simp only [read, if_true] at this
      exact absurd this.symm (hn.2 d (List.mem_cons_self ..))
  | cons c m ih =>
    cases n with
    | nil =>
      have := h c.1
      simp only [read, if_true] at this
      exact absurd this (hm.2 c (List.mem_cons_self ..))
    | cons d n =>
      have hc := hm.2 c (List.mem_cons_self ..)
      have hd := hn.2 d (List.mem_cons_self ..)
      have below : ∀ {e : Host.Cell} {l : Memory} (_ : WF (e :: l)) {a : Nat}, a < e.1 → read (e :: l) a = unlisted := by
        intro e l hl a ha
        refine read_eq_unlisted fun f hf => ?_
        rcases List.mem_cons.1 hf with rfl | hf
        · omega
        · have := hl.lt hf; omega
      have hk : c.1 = d.1 := by
        rcases Nat.lt_trichotomy c.1 d.1 with hlt | heq | hlt
        · have := h c.1
          rw [below hn hlt] at this
          simp only [read, if_true] at this
          exact absurd this hc
        · exact heq
        · have := h d.1
          rw [below hm hlt] at this
          simp only [read, if_true] at this
          exact absurd this.symm hd
      have hv : c.2 = d.2 := by
        have := h c.1
        simpa [read, hk] using this
      have hcd : c = d := Prod.ext hk hv
      subst hcd
      rw [ih hm.tail hn.tail fun a => ?_]
      by_cases ha : a = c.1
      · subst ha
        rw [read_eq_unlisted fun e he => by have := hm.lt he; omega, read_eq_unlisted fun e he => by have := hn.lt he; omega]
      · have := h a
        simpa [read, ha] using this

end Sys2Proof.Machine.Memory
end

