-- ==== Sys2Proof/Laws/Step.lean ====
section
/-! SUPPORT. What a step can do, said once. -/

namespace Sys2Proof.Machine

variable {s : State}

theorem step_idle (h : s.pending = []) : step s = .next s := by simp [step, h, idle]

theorem step_event {e : PortEvent} {rest : List PortEvent} (h : s.pending = e :: rest) : step s = serve e rest s := by
  simp [step, h]

theorem step_reset {rest : List PortEvent} (h : s.pending = .reset :: rest) : step s = .next (s.resetBlock rest) :=
  step_event h

theorem step_cut {cmd : Word} {din : Bus} {rest : List PortEvent} (h : s.pending = .commandCutByReset cmd din :: rest) :
    step s = .next (s.resetBlock rest) := step_event h

theorem runCommand_ok {cmd : Word} {i : Instr} (h : decode cmd = .ok i) : runCommand cmd s = exec i s := by
  simp [runCommand, h]

theorem runCommand_illegal {cmd : Word} (h : ∀ i, decode cmd ≠ .ok i) :
    runCommand cmd s = .next (s.raise .illegalCommand) := by
  unfold runCommand
  split
  · exact absurd ‹_› (h _)
  · rfl

theorem step_command {cmd : Word} {din : Bus} {rest : List PortEvent} {i : Instr}
    (h : s.pending = .command cmd din :: rest) (hd : decode cmd = .ok i) : step s = exec i (s.accept din rest) :=
  (step_event h).trans (runCommand_ok hd)

theorem step_illegal {cmd : Word} {din : Bus} {rest : List PortEvent}
    (h : s.pending = .command cmd din :: rest) (hd : ∀ i, decode cmd ≠ .ok i) :
    step s = .next ((s.accept din rest).raise .illegalCommand) :=
  (step_event h).trans (runCommand_illegal hd)

/-- Everything a step can do: wait, reset, refuse an illegal word, raise an error, or complete a command. -/
theorem step_cases (s : State) :
    (s.pending = [] ∧ step s = .next s) ∨
    (∃ rest, (s.pending = .reset :: rest ∨ ∃ cmd din, s.pending = .commandCutByReset cmd din :: rest) ∧
      step s = .next (s.resetBlock rest)) ∨
    (∃ cmd din rest, s.pending = .command cmd din :: rest ∧ (∀ i, decode cmd ≠ .ok i) ∧
      step s = .next ((s.accept din rest).raise .illegalCommand)) ∨
    (∃ cmd din rest i e, s.pending = .command cmd din :: rest ∧ decode cmd = .ok i ∧ Raises i (s.accept din rest) e ∧
      step s = .next ((s.accept din rest).raise e)) ∨
    (∃ cmd din rest i u out, s.pending = .command cmd din :: rest ∧ decode cmd = .ok i ∧ Writes i (s.accept din rest) u ∧
      step s = .next (u.respond out)) := by
  cases h : s.pending with
  | nil => exact .inl ⟨rfl, step_idle h⟩
  | cons e rest =>
    cases e with
    | reset => exact .inr (.inl ⟨rest, .inl rfl, step_reset h⟩)
    | commandCutByReset cmd din => exact .inr (.inl ⟨rest, .inr ⟨cmd, din, rfl⟩, step_cut h⟩)
    | command cmd din =>
      by_cases hd : ∃ i, decode cmd = .ok i
      · obtain ⟨i, hi⟩ := hd
        rcases exec_cases i (s.accept din rest) with ⟨e, hr, he⟩ | ⟨u, out, hw, he⟩
        · exact .inr (.inr (.inr (.inl ⟨cmd, din, rest, i, e, rfl, hi, hr, (step_command h hi).trans he⟩)))
        · exact .inr (.inr (.inr (.inr ⟨cmd, din, rest, i, u, out, rfl, hi, hw, (step_command h hi).trans he⟩)))
      · have hd : ∀ i, decode cmd ≠ .ok i := fun i hi => hd ⟨i, hi⟩
        exact .inr (.inr (.inl ⟨cmd, din, rest, rfl, hd, step_illegal h hd⟩))

/-- The next state of a step: the inversion of `step`. -/
theorem step_next {s t : State} (h : step s = .next t) :
    (s.pending = [] ∧ t = s) ∨
    (∃ rest, (s.pending = .reset :: rest ∨ ∃ cmd din, s.pending = .commandCutByReset cmd din :: rest) ∧
      t = s.resetBlock rest) ∨
    (∃ cmd din rest, s.pending = .command cmd din :: rest ∧ (∀ i, decode cmd ≠ .ok i) ∧
      t = (s.accept din rest).raise .illegalCommand) ∨
    (∃ cmd din rest i e, s.pending = .command cmd din :: rest ∧ decode cmd = .ok i ∧ Raises i (s.accept din rest) e ∧
      t = (s.accept din rest).raise e) ∨
    (∃ cmd din rest i u out, s.pending = .command cmd din :: rest ∧ decode cmd = .ok i ∧ Writes i (s.accept din rest) u ∧
      t = u.respond out) := by
  have := step_cases s
  rw [h] at this
  simpa using this

/-- The next state of a step that serves a command. -/
theorem step_command_next {s t : State} {cmd : Word} {din : Bus} {rest : List PortEvent}
    (hp : s.pending = .command cmd din :: rest) (h : step s = .next t) :
    ((∀ i, decode cmd ≠ .ok i) ∧ t = (s.accept din rest).raise .illegalCommand) ∨
    (∃ i e, decode cmd = .ok i ∧ Raises i (s.accept din rest) e ∧ t = (s.accept din rest).raise e) ∨
    (∃ i u out, decode cmd = .ok i ∧ Writes i (s.accept din rest) u ∧ t = u.respond out) := by
  rcases step_next h with ⟨h', _⟩ | ⟨_, h', _⟩ | ⟨_, _, _, h', hd, ht⟩ | ⟨_, _, _, i, e, h', hd, hr, ht⟩ |
    ⟨_, _, _, i, u, out, h', hd, hw, ht⟩
  · simp [hp] at h'
  · simp [hp] at h'
  all_goals
    rw [hp] at h'
    injection h' with h1 h2
    injection h1 with h3 h4
    subst h2 h3 h4
  · exact .inl ⟨hd, ht⟩
  · exact .inr (.inl ⟨i, e, hd, hr, ht⟩)
  · exact .inr (.inr ⟨i, u, out, hd, hw, ht⟩)

/-- A command's error is the answer of R205. -/
theorem answersError_raise (s : State) (e : Status) : AnswersError s (s.raise e) (statusCode e) :=
  ⟨⟨rfl, rfl, rfl, rfl, rfl, rfl⟩, by simp, rfl, rfl, rfl⟩

/-- A run of any machine begins with its first step. -/
theorem core_run_succ (M : Host.Core) (k : Nat) {s t : M.State} (h : M.step s = .next t) : M.run (k + 1) s = M.run k t := by
  simp only [Host.Core.run, h]

/-- A run of any machine in two parts. -/
theorem core_run_add (M : Host.Core) (a b : Nat) {s t : M.State} (h : M.run a s = .next t) : M.run (a + b) s = M.run b t := by
  induction a generalizing s with
  | zero =>
    simp only [Host.Core.run, Host.Outcome.next.injEq] at h
    rw [h, Nat.zero_add]
  | succ a ih =>
    rw [show a + 1 + b = (a + b) + 1 by omega]
    simp only [Host.Core.run] at h ⊢
    cases hs : M.step s with
    | next u => rw [hs] at h; exact ih h
    | fault r => rw [hs] at h; simp at h
    | refused r => rw [hs] at h; simp at h

/-- A run in two parts. -/
theorem run_add {s t : State} (a b : Nat) (h : core.run a s = .next t) : core.run (a + b) s = core.run b t :=
  core_run_add core a b h

/-- A run of no step. -/
theorem run_zero (s : State) : core.run 0 s = .next s := rfl

/-- A run begins with its first step. -/
theorem run_succ {s t : State} (k : Nat) (h : step s = .next t) : core.run (k + 1) s = core.run k t :=
  core_run_succ core k h

end Sys2Proof.Machine
end

