-- ==== Sys2Proof/Laws/Orchestrator.lean ====
section
/-! SUPPORT. What the host's operations do (spec 45_host_orchestrator.md), one lemma per operation. -/

namespace Sys2Proof.Machine.Orchestrator

variable {o o' : Orchestrator}

/-! The commands the host issues -/

/-- Issuing a command is exec of it at the block with DIN sampled (R57, R172). -/
theorem command_eq {i : Instr} {din : Bus} {t : State} (hd : decode (encode i) = .ok i)
    (h : exec i (o.block.accept din o.block.pending) = .next t) : o.command i din = { o with block := t } := by
  have hs : step (o.block.present (encode i) din) = .next t := (step_command rfl hd).trans h
  simp only [command, hs]

theorem command_getPos (hk : o.block.keyed = true) :
    o.command .getPos zeroBus =
      { o with block := (o.block.accept zeroBus o.block.pending).respond (positionToBus o.block.ctr) } :=
  command_eq rfl (execGetPos_ok hk)

theorem command_getPos_unkeyed (hk : o.block.keyed = false) :
    o.command .getPos zeroBus = { o with block := (o.block.accept zeroBus o.block.pending).raise .notInitialised } :=
  command_eq rfl (execGetPos_unkeyed hk)

theorem command_setPos (hk : o.block.keyed = true) (n : Position) :
    o.command .setPos (positionToBus n) =
      { o with block := ((o.block.accept (positionToBus n) o.block.pending).setCtr n).respond zeroBus } := by
  rw [command_eq (i := .setPos) rfl
    (execSetPos_ok (s := o.block.accept (positionToBus n) o.block.pending) hk), State.accept_din, busPosition_positionToBus]

theorem command_setPos_unkeyed (hk : o.block.keyed = false) (n : Position) :
    o.command .setPos (positionToBus n) =
      { o with block := (o.block.accept (positionToBus n) o.block.pending).raise .notInitialised } :=
  command_eq rfl (execSetPos_unkeyed hk)

theorem command_genBlock (hk : o.block.keyed = true) (hc : o.block.ctr ≠ exhaustedPosition) :
    o.command .genBlock zeroBus =
      { o with
        block := ((o.block.accept zeroBus o.block.pending).setCtr (o.block.ctr + 1)).respond
          (Machine.block o.block.config.doubleRounds o.block.matrix) } :=
  command_eq rfl (execGenBlock_ok hk hc)

/-- The response just taken carries the status it was sent with. -/
theorem answered_answer (o : Orchestrator) (s : State) (c d : Status) (out : Bus) :
    answered { o with block := s.answer c out } d = decide (c = d) := by
  simp only [answered, code, State.answer_rsp, Option.map_some, rspCode_responseWord]
  cases c <;> cases d <;> decide

@[simp] theorem answered_respond (o : Orchestrator) (s : State) (out : Bus) :
    answered { o with block := s.respond out } .ok = true := answered_answer o s .ok .ok out

@[simp] theorem answered_raise (o : Orchestrator) (s : State) (e d : Status) :
    answered { o with block := s.raise e } d = decide (e = d) := answered_answer o s e d zeroBus

/-! What stays the same -/

/-- Two hosts stand for the same instance: the same key, nonce and parameters, with the block keyed in both or in neither. -/
structure SameInstance (o o' : Orchestrator) : Prop where
  config : o'.block.config = o.block.config
  key : o'.block.key = o.block.key
  nonce : o'.block.nonce = o.block.nonce
  keyed : o'.block.keyed = o.block.keyed

theorem SameInstance.refl (o : Orchestrator) : SameInstance o o := ⟨rfl, rfl, rfl, rfl⟩

theorem SameInstance.trans {o o' o'' : Orchestrator} (h : SameInstance o o') (h' : SameInstance o' o'') : SameInstance o o'' :=
  ⟨h'.config.trans h.config, h'.key.trans h.key, h'.nonce.trans h.nonce, h'.keyed.trans h.keyed⟩

/-- The block at ctr = n depends on the instance alone (R128). -/
theorem matrixAt_congr (h : SameInstance o o') (n : Nat) : o'.matrixAt n = o.matrixAt n :=
  State.matrix_congr h.key h.nonce (by rw [State.ctr_setCtr, State.ctr_setCtr])

/-- The keystream depends on the instance alone (R169). -/
theorem keystreamByte_congr (h : SameInstance o o') (m : Nat) : o'.keystreamByte m = o.keystreamByte m := by
  simp only [keystreamByte, matrixAt_congr h, h.config]

/-- The matrix of the block is that of its own counter value. -/
theorem matrixAt_ctr {n : Nat} (h : o.block.ctr.toNat = n) : o.matrixAt n = o.block.matrix := by
  have : BitVec.ofNat 64 n = o.block.ctr := by rw [← h, BitVec.ofNat_toNat, BitVec.setWidth_eq]
  rw [matrixAt, this, State.setCtr_ctr]

/-! apply_keystream's check in advance -/

theorem checkBlocks_zero : o.checkBlocks 0 = (o, .ok) := if_pos rfl

/-- The host after the check read the position of a keyed block. -/
abbrev afterGetPos (o : Orchestrator) : Orchestrator :=
  { o with block := (o.block.accept zeroBus o.block.pending).respond (positionToBus o.block.ctr) }

/-- With a keyed block the check passes when the CounterExhausted condition does not hold and enough blocks remain (R163). -/
theorem checkBlocks_ok (hk : o.block.keyed = true) {need : Nat} (hn : need ≠ 0) (hx : o.exhaustedAt = none)
    (hle : need ≤ (2 ^ 64 - 1) - o.block.ctr.toNat) : o.checkBlocks need = (o.afterGetPos, .ok) := by
  simp only [checkBlocks, if_neg hn, command_getPos hk, answered_respond, State.respond_dout, busPosition_positionToBus,
    Bool.true_eq_false, if_false]
  rw [if_neg (not_or.2 ⟨not_not.2 hx, Nat.not_lt.2 hle⟩)]

/-- With a keyed block the check fails when the condition holds (R167) or too few blocks remain (R163), and the condition then
holds. -/
theorem checkBlocks_exhausted (hk : o.block.keyed = true) {need : Nat} (hn : need ≠ 0)
    (h : o.exhaustedAt ≠ none ∨ need > (2 ^ 64 - 1) - o.block.ctr.toNat) :
    o.checkBlocks need = ({ o.afterGetPos with exhaustedAt := some o.block.ctr }, .counterExhausted) := by
  simp only [checkBlocks, if_neg hn, command_getPos hk, answered_respond, State.respond_dout, busPosition_positionToBus,
    Bool.true_eq_false, if_false]
  rw [if_pos h]

/-- Without a key the check is a defect, and leaves the host's memory and buffer alone. -/
theorem checkBlocks_unkeyed (hk : o.block.keyed = false) {need : Nat} (hn : need ≠ 0) :
    o.checkBlocks need =
      ({ o with block := (o.block.accept zeroBus o.block.pending).raise .notInitialised }, .defect) := by
  simp only [checkBlocks, if_neg hn, command_getPos_unkeyed hk, answered_raise]
  rfl

/-- The four ways the check can end. -/
theorem checkBlocks_cases (o : Orchestrator) (need : Nat) :
    (need = 0 ∧ o.checkBlocks need = (o, .ok)) ∨
    (need ≠ 0 ∧ o.block.keyed = false ∧
      o.checkBlocks need = ({ o with block := (o.block.accept zeroBus o.block.pending).raise .notInitialised }, .defect)) ∨
    (need ≠ 0 ∧ o.block.keyed = true ∧ (o.exhaustedAt ≠ none ∨ need > (2 ^ 64 - 1) - o.block.ctr.toNat) ∧
      o.checkBlocks need = ({ o.afterGetPos with exhaustedAt := some o.block.ctr }, .counterExhausted)) ∨
    (need ≠ 0 ∧ o.block.keyed = true ∧ o.exhaustedAt = none ∧ need ≤ (2 ^ 64 - 1) - o.block.ctr.toNat ∧
      o.checkBlocks need = (o.afterGetPos, .ok)) := by
  by_cases hn : need = 0
  · exact .inl ⟨hn, hn ▸ checkBlocks_zero⟩
  · cases hk : o.block.keyed
    · exact .inr (.inl ⟨hn, rfl, checkBlocks_unkeyed hk hn⟩)
    · by_cases h : o.exhaustedAt ≠ none ∨ need > (2 ^ 64 - 1) - o.block.ctr.toNat
      · exact .inr (.inr (.inl ⟨hn, rfl, h, checkBlocks_exhausted hk hn h⟩))
      · rw [not_or, not_not, Nat.not_lt] at h
        exact .inr (.inr (.inr ⟨hn, rfl, h.1, h.2, checkBlocks_ok hk hn h.1 h.2⟩))

/-- The check never changes what the loop depends on. -/
theorem checkBlocks_frame {need : Nat} {r : HostResult} (h : o.checkBlocks need = (o', r)) :
    SameInstance o o' ∧ o'.block.ctr = o.block.ctr ∧ o'.mem = o.mem ∧ o'.hbuf = o.hbuf ∧ o'.cur = o.cur := by
  rcases checkBlocks_cases o need with ⟨-, e⟩ | ⟨-, -, e⟩ | ⟨-, -, -, e⟩ | ⟨-, -, -, -, e⟩ <;>
    rw [e] at h <;> obtain ⟨rfl, -⟩ := Prod.mk.inj h
  · exact ⟨.refl _, rfl, rfl, rfl, rfl⟩
  · exact ⟨⟨rfl, rfl, rfl, rfl⟩, State.ctr_raise .., rfl, rfl, rfl⟩
  · exact ⟨⟨rfl, rfl, rfl, rfl⟩, State.ctr_respond .., rfl, rfl, rfl⟩
  · exact ⟨⟨rfl, rfl, rfl, rfl⟩, State.ctr_respond .., rfl, rfl, rfl⟩

/-- The check never ends the CounterExhausted condition, and begins it only by failing (R167). -/
theorem checkBlocks_exhaustedAt {need : Nat} {r : HostResult} (h : o.checkBlocks need = (o', r)) :
    o'.exhaustedAt = if r = .counterExhausted then some o.block.ctr else o.exhaustedAt := by
  rcases checkBlocks_cases o need with ⟨-, e⟩ | ⟨-, -, e⟩ | ⟨-, -, -, e⟩ | ⟨-, -, -, -, e⟩ <;>
    rw [e] at h <;> obtain ⟨rfl, rfl⟩ := Prod.mk.inj h <;> rfl

/-! The loop -/

theorem fill_mid (hc : o.cur ≠ 0) : o.fill = (o, .ok) := if_neg hc

theorem fill_aligned (hc : o.cur = 0) (hk : o.block.keyed = true) (hx : o.block.ctr ≠ exhaustedPosition) :
    o.fill = ({ o with
      block := ((o.block.accept zeroBus o.block.pending).setCtr (o.block.ctr + 1)).respond
        (Machine.block o.block.config.doubleRounds o.block.matrix),
      hbuf := Machine.block o.block.config.doubleRounds o.block.matrix }, .ok) := by
  simp only [fill, if_pos hc, command_genBlock hk hx, answered_respond, if_true, State.respond_dout]

/-- Issuing a command changes nothing of the host. -/
theorem command_frame (o : Orchestrator) (i : Instr) (din : Bus) :
    (o.command i din).mem = o.mem ∧ (o.command i din).cur = o.cur ∧ (o.command i din).exhaustedAt = o.exhaustedAt := by
  unfold command
  split
  · exact ⟨rfl, rfl, rfl⟩
  · exact nomatch ‹Fault›
  · exact ⟨rfl, rfl, rfl⟩

/-- Filling leaves the memory, the cursor and the CounterExhausted condition, and never answers CounterExhausted. -/
theorem fill_frame {r : HostResult} (h : o.fill = (o', r)) :
    (o'.mem = o.mem ∧ o'.cur = o.cur ∧ o'.exhaustedAt = o.exhaustedAt) ∧ r ≠ .counterExhausted := by
  unfold fill at h
  split at h
  · simp only at h
    split at h <;> obtain ⟨rfl, rfl⟩ := Prod.mk.inj h <;> exact ⟨command_frame .., by decide⟩
  · obtain ⟨rfl, rfl⟩ := Prod.mk.inj h
    exact ⟨⟨rfl, rfl, rfl⟩, by decide⟩

/-- The loop leaves the CounterExhausted condition and never answers CounterExhausted. -/
theorem applyBytes_exhaustedAt {n addr : Nat} {r : HostResult} (h : o.applyBytes addr n = (o', r)) :
    o'.exhaustedAt = o.exhaustedAt ∧ r ≠ .counterExhausted := by
  induction n generalizing o addr with
  | zero =>
    obtain ⟨rfl, rfl⟩ := Prod.mk.inj h
    exact ⟨rfl, by decide⟩
  | succ n ih =>
    rw [applyBytes] at h
    split at h
    · rename_i o1 hf
      obtain ⟨he, hr⟩ := ih h
      exact ⟨he.trans (fill_frame hf).1.2.2, hr⟩
    · rename_i o1 r1 _ hf
      obtain ⟨rfl, rfl⟩ := Prod.mk.inj h
      exact ⟨(fill_frame hf).1.2.2, (fill_frame hf).2⟩

/-- The cursor moves by one per byte (R168). -/
theorem applyBytes_cur {n addr : Nat} (h : o.applyBytes addr n = (o', .ok)) : o'.cur.val = (o.cur.val + n) % 64 := by
  induction n generalizing o addr with
  | zero =>
    obtain ⟨rfl, -⟩ := Prod.mk.inj h
    exact (Nat.mod_eq_of_lt o.cur.isLt).symm
  | succ n ih =>
    rw [applyBytes] at h
    split at h
    · rename_i o1 hf
      have h := ih h
      have hc := (fill_frame hf).1.2.1
      simp only [xorByte, Fin.val_add, hc] at h
      rw [h]
      change ((o.cur.val + 1) % 64 + n) % 64 = _
      omega
    · simp_all

/-- The bytes from `addr` on are the only ones the loop writes. -/
theorem applyBytes_mem {n addr : Nat} {r : HostResult} (hw : Memory.WF o.mem) (h : o.applyBytes addr n = (o', r)) :
    Memory.WF o'.mem ∧ ∀ a, a < addr ∨ addr + n ≤ a → o'.mem.read a = o.mem.read a := by
  induction n generalizing o addr with
  | zero =>
    obtain ⟨rfl, -⟩ := Prod.mk.inj h
    exact ⟨hw, fun _ _ => rfl⟩
  | succ n ih =>
    rw [applyBytes] at h
    split at h
    · rename_i o1 hf
      have hm := (fill_frame hf).1.1
      have hw' : Memory.WF (o1.xorByte addr).mem := by simpa only [xorByte, hm] using hw.write _ _
      obtain ⟨hw2, hr⟩ := ih hw' h
      refine ⟨hw2, fun a ha => ?_⟩
      rw [hr a (by omega)]
      simp only [xorByte, hm]
      rw [Memory.read_write hw, if_neg (by omega)]
    · rename_i o1 r1 _ hf
      obtain ⟨rfl, -⟩ := Prod.mk.inj h
      have hm := (fill_frame hf).1.1
      exact ⟨hm ▸ hw, fun a _ => by rw [hm]⟩

/-- One turn of the loop from keystream byte q: the block it needs exists, the byte it xors is KS(q), and the instance is then at
byte q + 1 (R163, R169). -/
theorem fill_atByte {q : Nat} (h : o.AtByte q) (hq : q < 64 * (2 ^ 64 - 1)) :
    ∃ o1, o.fill = (o1, .ok) ∧ SameInstance o o1 ∧ o1.mem = o.mem ∧ o1.cur = o.cur ∧
      o1.hbuf[o1.cur] = o.keystreamByte q ∧ ∀ addr, (o1.xorByte addr).AtByte (q + 1) := by
  obtain ⟨hk, hcur, h0, h1⟩ := h
  by_cases hc : o.cur = 0
  · have hz : q % 64 = 0 := by rw [← hcur, hc]; rfl
    have hctr := h0 hz
    have hx : o.block.ctr ≠ exhaustedPosition := fun e => by
      have := ctr_eq_exhausted_iff.1 e
      omega
    have hsucc := toNat_ctr_succ hx
    refine ⟨_, fill_aligned hc hk hx, ⟨rfl, rfl, rfl, rfl⟩, rfl, rfl, ?_, fun addr => ?_⟩
    · simp only [keystreamByte, matrixAt_ctr hctr, Fin.getElem_fin, hcur]
    · refine ⟨hk, ?_, fun hz' => absurd hz' (by omega), fun _ => ⟨?_, ?_⟩⟩
      · simp only [xorByte, hc]
        change 1 = _
        omega
      · simp only [xorByte, State.ctr_respond, State.ctr_setCtr]
        rw [hsucc]
        omega
      · have hq' : (q + 1) / 64 = q / 64 := by omega
        simp only [xorByte, hq', State.respond_config, State.setCtr_config, State.accept_config]
        rw [← matrixAt_ctr hctr]
        congr 1
  · have hz : q % 64 ≠ 0 := fun e => hc (Fin.ext (hcur.trans e))
    obtain ⟨hctr, hbuf⟩ := h1 hz
    refine ⟨o, fill_mid hc, .refl _, rfl, rfl, ?_, fun addr => ?_⟩
    · simp only [keystreamByte, hbuf, Fin.getElem_fin, hcur]
    · refine ⟨hk, ?_, fun hz' => ?_, fun hz' => ⟨?_, ?_⟩⟩
      · simp only [xorByte, Fin.val_add, hcur]
        change (q % 64 + 1) % 64 = _
        omega
      · simp only [xorByte, hctr]; omega
      · simp only [xorByte, hctr]; omega
      · have hq' : (q + 1) / 64 = q / 64 := by omega
        simp only [xorByte, hbuf, hq']
        rfl

/-- The loop from keystream byte q, while the blocks it needs exist (R163, R169). -/
theorem applyBytes_atByte {n addr q : Nat} (hw : Memory.WF o.mem) (h : o.AtByte q) (hq : q + n ≤ 64 * (2 ^ 64 - 1)) :
    ∃ o', o.applyBytes addr n = (o', .ok) ∧ SameInstance o o' ∧ o'.AtByte (q + n) ∧
      ∀ k < n, o'.mem.read (addr + k) = o.mem.read (addr + k) ^^^ o.keystreamByte (q + k) := by
  induction n generalizing o addr q with
  | zero => exact ⟨o, rfl, .refl _, h, by simp⟩
  | succ n ih =>
    obtain ⟨o1, hf, hsame, hm, hcur, hb, hat⟩ := fill_atByte h (by omega)
    have hw1 : Memory.WF (o1.xorByte addr).mem := by simpa only [xorByte, hm] using hw.write _ _
    have hsame1 : SameInstance o (o1.xorByte addr) := hsame.trans ⟨rfl, rfl, rfl, rfl⟩
    obtain ⟨o2, ho2, hs2, hat2, hr2⟩ := ih (addr := addr + 1) hw1 (hat addr) (by omega)
    refine ⟨o2, ?_, hsame1.trans hs2, by rw [show q + (n + 1) = q + 1 + n by omega]; exact hat2, fun k hk => ?_⟩
    · rw [applyBytes, hf]
      exact ho2
    · cases k with
      | zero =>
        rw [(applyBytes_mem hw1 ho2).2 _ (by omega)]
        simp only [xorByte, hm, hb, Nat.add_zero]
        rw [Memory.read_write hw, if_pos rfl]
      | succ k =>
        have := hr2 k (by omega)
        rw [show addr + 1 + k = addr + (k + 1) by omega, show q + 1 + k = q + (k + 1) by omega, keystreamByte_congr hsame1] at this
        rw [this]
        simp only [xorByte, hm]
        rw [Memory.read_write hw, if_neg (by omega)]

/-- At keystream byte q, the check in advance asks whether the call ends within the keystream (R163). -/
theorem blocksNeeded_le_iff {q len : Nat} (h : o.AtByte q) :
    o.blocksNeeded len ≤ (2 ^ 64 - 1) - o.block.ctr.toNat ↔ q + len ≤ 64 * (2 ^ 64 - 1) := by
  obtain ⟨-, hcur, h0, h1⟩ := h
  have hlt := o.block.ctr.isLt
  unfold blocksNeeded available
  by_cases hc : o.cur = 0
  · have hz : q % 64 = 0 := by rw [← hcur, hc]; rfl
    have := h0 hz
    simp only [hc, if_true]
    split <;> omega
  · have hz : q % 64 ≠ 0 := fun e => hc (Fin.ext (hcur.trans e))
    have := (h1 hz).1
    simp only [hc, if_false]
    split <;> omega

/-- The loop fills as many blocks as the check counted, so it ends (R163). -/
theorem applyBytes_ok {n addr : Nat} (hk : o.block.keyed = true)
    (h : o.blocksNeeded n ≤ (2 ^ 64 - 1) - o.block.ctr.toNat) : ∃ o', o.applyBytes addr n = (o', .ok) := by
  induction n generalizing o addr with
  | zero => exact ⟨o, rfl⟩
  | succ n ih =>
    rw [applyBytes]
    unfold blocksNeeded available at h
    by_cases hc : o.cur = 0
    · simp only [hc, if_true] at h
      rw [if_neg (by omega)] at h
      have hlt := o.block.ctr.isLt
      have hx : o.block.ctr ≠ exhaustedPosition := fun e => by
        have := ctr_eq_exhausted_iff.1 e
        omega
      rw [fill_aligned hc hk hx]
      refine ih hk ?_
      have hs := toNat_ctr_succ hx
      simp only [blocksNeeded, available, xorByte, hc, State.ctr_respond, State.ctr_setCtr, hs]
      change (if n ≤ 63 then 0 else (n - 63 + 63) / 64) ≤ _
      split <;> omega
    · simp only [hc, if_false] at h
      rw [fill_mid hc]
      refine ih hk ?_
      have hcur : o.cur.val ≠ 0 := fun e => hc (Fin.ext e)
      have hlt := o.cur.isLt
      have hv : (o.cur + 1).val = (o.cur.val + 1) % 64 := Fin.val_add ..
      have hz : o.cur + 1 = 0 ↔ (o.cur.val + 1) % 64 = 0 := by rw [← hv]; exact Fin.ext_iff
      simp only [blocksNeeded, available, xorByte, hz, hv]
      change _ ≤ 2 ^ 64 - 1 - o.block.ctr.toNat
      split at h <;> split <;> split <;> omega

/-! The operations -/

/-- For lengths the command field can carry, `new` moves the block by one INIT with the true lengths (R162). -/
theorem new_block (o : Orchestrator) {key nonce : List Byte} {klen nlen : Fin 256} (hk : key.length = klen.val)
    (hn : nonce.length = nlen.val) :
    (o.new key nonce).1.block = (o.command (.init klen nlen) (newDin key nonce)).block := by
  rw [new, if_neg (by omega), hk, hn, Fin.ofNat_val_eq_self, Fin.ofNat_val_eq_self]
  simp only
  split
  · rfl
  · split <;> rfl

/-- `new` ends the CounterExhausted condition exactly when it succeeds (R167, log 17). -/
theorem new_exhaustedAt (o : Orchestrator) (key nonce : List Byte) :
    (o.new key nonce).1.exhaustedAt = if (o.new key nonce).2 = .ok then none else o.exhaustedAt := by
  unfold new
  split
  · rfl
  · simp only
    split
    · rfl
    · split <;> exact (command_frame ..).2.2

/-- `seek(n)` with a keyed block (R164). -/
theorem seek_keyed (hk : o.block.keyed = true) (n : Position) :
    o.seek n = ({ o with
      block := ((o.block.accept (positionToBus n) o.block.pending).setCtr n).respond zeroBus, cur := 0,
      exhaustedAt := o.exhaustedAfterSeek n }, .ok) := by
  simp only [seek, command_setPos hk, answered_respond, if_true, exhaustedAfterSeek]

/-- `seek(n)` without a key is a defect. -/
theorem seek_unkeyed (hk : o.block.keyed = false) (n : Position) :
    o.seek n = ({ o with block := (o.block.accept (positionToBus n) o.block.pending).raise .notInitialised }, .defect) := by
  simp only [seek, command_setPos_unkeyed hk, answered_raise]
  rfl

/-- A seek to a lower position than the failing call's ends the CounterExhausted condition (R167). -/
theorem exhaustedAfterSeek_lower {p n : Position} (h : o.exhaustedAt = some p) (hn : n < p) : o.exhaustedAfterSeek n = none := by
  simp [exhaustedAfterSeek, h, Option.filter, BitVec.not_le.2 hn]

/-- Any other seek keeps it (R167). -/
theorem exhaustedAfterSeek_of_le {p n : Position} (h : o.exhaustedAt = some p) (hn : p ≤ n) :
    o.exhaustedAfterSeek n = some p := by simp [exhaustedAfterSeek, h, Option.filter, hn]

/-- Where the condition does not hold, no seek begins it. -/
theorem exhaustedAfterSeek_none (h : o.exhaustedAt = none) (n : Position) : o.exhaustedAfterSeek n = none := by
  simp [exhaustedAfterSeek, h]

/-- What a seek leaves of the condition: all of it when the seek fails, and what `exhaustedAfterSeek` says when it succeeds. -/
theorem seek_exhaustedAt (o : Orchestrator) (n : Position) :
    (o.seek n).1.exhaustedAt = if o.block.keyed then o.exhaustedAfterSeek n else o.exhaustedAt := by
  cases hk : o.block.keyed
  · rw [seek_unkeyed hk]; rfl
  · rw [seek_keyed hk]; rfl

/-- `seek_bytes` leaves of the condition what its seek leaves (log 17). -/
theorem seekBytes_exhaustedAt (o : Orchestrator) (q : Position) :
    (o.seekBytes q).1.exhaustedAt = (o.seek (q / 64)).1.exhaustedAt := by
  rw [seekBytes]
  split
  · rename_i h
    rw [h]
    split <;> rfl
  · rename_i h
    rw [h]

/-- The blocks a call needs depend on CUR alone (R163). -/
theorem blocksNeeded_congr (h : o'.cur = o.cur) (len : Nat) : o'.blocksNeeded len = o.blocksNeeded len := by
  unfold blocksNeeded available
  rw [h]

/-- `apply_keystream` when the condition holds or too few blocks remain (R163, R167). -/
theorem applyKeystream_exhausted {buf len : Nat} (hk : o.block.keyed = true) (hn : o.blocksNeeded len ≠ 0)
    (h : o.exhaustedAt ≠ none ∨ o.blocksNeeded len > (2 ^ 64 - 1) - o.block.ctr.toNat) :
    o.applyKeystream buf len = ({ o.afterGetPos with exhaustedAt := some o.block.ctr }, .counterExhausted) := by
  simp only [applyKeystream, checkBlocks_exhausted hk hn h]

/-- `apply_keystream` begins the CounterExhausted condition by failing so, and never ends it (R167). -/
theorem applyKeystream_exhaustedAt {buf len : Nat} {r : HostResult} (h : o.applyKeystream buf len = (o', r)) :
    o'.exhaustedAt = if r = .counterExhausted then some o.block.ctr else o.exhaustedAt := by
  rw [applyKeystream] at h
  split at h
  · rename_i o1 hc
    obtain ⟨he, hr⟩ := applyBytes_exhaustedAt h
    rw [he, checkBlocks_exhaustedAt hc, if_neg hr]
    rfl
  · rename_i o1 r1 _ hc
    obtain ⟨rfl, rfl⟩ := Prod.mk.inj h
    exact checkBlocks_exhaustedAt hc

/-- `apply_keystream` at keystream byte q, with the CounterExhausted condition not holding or no new block needed (R163, R169). -/
theorem applyKeystream_atByte {buf len q : Nat} (hw : Memory.WF o.mem) (h : o.AtByte q)
    (hx : o.blocksNeeded len = 0 ∨ o.exhaustedAt = none) (hq : q + len ≤ 64 * (2 ^ 64 - 1)) :
    ∃ o', o.applyKeystream buf len = (o', .ok) ∧ SameInstance o o' ∧ o'.AtByte (q + len) ∧ Memory.WF o'.mem ∧
      (∀ k < len, o'.mem.read (buf + k) = o.mem.read (buf + k) ^^^ o.keystreamByte (q + k)) ∧
      ∀ a, a < buf ∨ buf + len ≤ a → o'.mem.read a = o.mem.read a := by
  have hle := (blocksNeeded_le_iff h).2 hq
  obtain ⟨o1, hcheck⟩ : ∃ o1, o.checkBlocks (o.blocksNeeded len) = (o1, .ok) := by
    by_cases hn : o.blocksNeeded len = 0
    · exact ⟨o, by rw [hn, checkBlocks_zero]⟩
    · exact ⟨_, checkBlocks_ok h.1 hn (hx.resolve_left hn) hle⟩
  obtain ⟨hs, hctr, hm, hb, hcur⟩ := checkBlocks_frame hcheck
  have h1 : o1.AtByte q := by
    refine ⟨hs.keyed.trans h.1, by rw [hcur]; exact h.2.1, by rw [hctr]; exact h.2.2.1, fun hz => ?_⟩
    rw [hctr, hb, hs.config, matrixAt_congr hs]
    exact h.2.2.2 hz
  have hw1 : Memory.WF o1.mem := hm ▸ hw
  obtain ⟨o2, ho2, hs2, hat, hr⟩ := applyBytes_atByte (addr := buf) hw1 h1 hq
  obtain ⟨hw2, hf⟩ := applyBytes_mem hw1 ho2
  refine ⟨o2, ?_, hs.trans hs2, hat, hw2, fun k hk => ?_, fun a ha => ?_⟩
  · simp only [applyKeystream, hcheck, ho2]
  · rw [hr k hk, hm, keystreamByte_congr hs]
  · rw [hf a ha, hm]

/-- A success of `apply_keystream` needed no new block, or found the condition not holding and enough blocks (R163, R167). -/
theorem of_applyKeystream_ok {buf len : Nat} (ha : o.applyKeystream buf len = (o', .ok)) :
    o.blocksNeeded len = 0 ∨ (o.exhaustedAt = none ∧ o.blocksNeeded len ≤ (2 ^ 64 - 1) - o.block.ctr.toNat) := by
  rw [applyKeystream] at ha
  rcases checkBlocks_cases o (o.blocksNeeded len) with ⟨hn, -⟩ | ⟨-, -, e⟩ | ⟨-, -, -, e⟩ | ⟨-, -, hx, hle, -⟩
  · exact .inl hn
  · rw [e] at ha; simp at ha
  · rw [e] at ha; simp at ha
  · exact .inr ⟨hx, hle⟩

/-- A success of `apply_keystream` at keystream byte q ends within the keystream (R163). -/
theorem le_of_applyKeystream_ok {buf len q : Nat} (h : o.AtByte q) (ha : o.applyKeystream buf len = (o', .ok)) :
    q + len ≤ 64 * (2 ^ 64 - 1) := by
  refine (blocksNeeded_le_iff h).1 ?_
  rcases of_applyKeystream_ok ha with hn | ⟨-, hle⟩
  · omega
  · exact hle

end Sys2Proof.Machine.Orchestrator
end

