-- ==== Sys2Proof/Laws/PerInstr.lean ====
section
/-! SUPPORT. Statements made once per constructor of `Instr`. -/

namespace Sys2Proof.Laws.EncodedWordLegal

/-- The word of an instruction is a legal command: its OPC is the row's own and its reserved field is zero (spec 30_encoding.md R74,
R77). -/
def Statement (i : Instr) : Prop := LegalCommand (encode i)

theorem init (klen nlen : Fin 256) : Statement (.init klen nlen) := by
  have h := toNat_encodeL 0x1 klen nlen
  have := klen.isLt
  have := nlen.isLt
  exact legalCommand_of_toNat (.inl (by rw [encode, h]; simp; omega)) (by rw [encode, h]; simp; omega)

theorem setPos : Statement .setPos := by unfold Statement; decide
theorem getPos : Statement .getPos := by unfold Statement; decide
theorem genBlock : Statement .genBlock := by unfold Statement; decide

theorem qround (a b c d : Fin 16) : Statement (.qround a b c d) := by
  have h := toNat_encodeQ 0x5 a b c d
  have := a.isLt
  have := b.isLt
  have := c.isLt
  have := d.isLt
  exact legalCommand_of_toNat (.inr (by rw [encode, h]; simp; omega)) (by rw [encode, h]; simp; omega)

theorem dround : Statement .dround := by unfold Statement; decide
theorem permute : Statement .permute := by unfold Statement; decide
theorem getInfo : Statement .getInfo := by unfold Statement; decide

end Sys2Proof.Laws.EncodedWordLegal
end

