-- ==== Sys2Proof/Laws/RoundFunction.lean ====
section
/-! SUPPORT. The quarter-round stage on its own positions: which words it reads and writes, that it can be undone (spec
40_round_function.md R108) and that stages on disjoint positions commute (R105). -/

namespace Sys2Proof.Machine

/-- The word at `i` after one step. -/
theorem getElem_mix (v : WordVec) (t x y : Fin 16) (n : Nat) (i : Fin 16) :
    (mix v t x y n)[i] = if i = t then v[t] ^^^ rotl (v[x] + v[y]) n else v[i] := by
  simp only [mix, Fin.getElem_fin, Vector.getElem_set, Fin.ext_iff, eq_comm (a := t.val)]

theorem getElem_mix_self (v : WordVec) (t x y : Fin 16) (n : Nat) :
    (mix v t x y n)[t] = v[t] ^^^ rotl (v[x] + v[y]) n := by rw [getElem_mix, if_pos rfl]

theorem getElem_mix_ne {t i : Fin 16} (h : i ≠ t) (v : WordVec) (x y : Fin 16) (n : Nat) : (mix v t x y n)[i] = v[i] := by
  rw [getElem_mix, if_neg h]

/-- Two vectors with the same words are the same. -/
theorem wordVec_ext {v w : WordVec} (h : ∀ i : Fin 16, v[i] = w[i]) : v = w := by
  ext i hi : 1
  exact h ⟨i, hi⟩

/-- A step that does not read the word it writes undoes itself. -/
theorem mix_mix {t x y : Fin 16} (hx : x ≠ t) (hy : y ≠ t) (v : WordVec) (n : Nat) : mix (mix v t x y n) t x y n = v := by
  refine wordVec_ext fun i => ?_
  by_cases h : i = t
  · subst h
    rw [getElem_mix_self, getElem_mix_self, getElem_mix_ne hx, getElem_mix_ne hy, BitVec.xor_assoc, BitVec.xor_self,
      BitVec.xor_zero]
  · rw [getElem_mix_ne h, getElem_mix_ne h]

/-- Steps commute when neither writes a word the other reads or writes. -/
theorem mix_comm {t x y t' x' y' : Fin 16} (ht : t ≠ t') (hx : x ≠ t') (hy : y ≠ t') (hx' : x' ≠ t) (hy' : y' ≠ t)
    (v : WordVec) (n n' : Nat) : mix (mix v t x y n) t' x' y' n' = mix (mix v t' x' y' n') t x y n := by
  refine wordVec_ext fun i => ?_
  by_cases h : i = t
  · subst h
    rw [getElem_mix_ne ht, getElem_mix_self, getElem_mix_self, getElem_mix_ne ht, getElem_mix_ne hx, getElem_mix_ne hy]
  · by_cases h' : i = t'
    · subst h'
      rw [getElem_mix_self, getElem_mix_ne ht.symm, getElem_mix_ne hx', getElem_mix_ne hy', getElem_mix_ne h, getElem_mix_self]
    · rw [getElem_mix_ne h', getElem_mix_ne h, getElem_mix_ne h, getElem_mix_ne h']

/-- Four positions. -/
abbrev Quad := Fin 16 × Fin 16 × Fin 16 × Fin 16

/-- The stage at four positions. -/
def quarterRoundAt (v : WordVec) (p : Quad) : WordVec := quarterRound v p.1 p.2.1 p.2.2.1 p.2.2.2

/-- The positions as a list. -/
def Quad.toList (p : Quad) : List (Fin 16) := [p.1, p.2.1, p.2.2.1, p.2.2.2]

/-- A position outside a, b, c, d passes through (R100, R109 (d)). -/
theorem getElem_quarterRound_of_notMem {v : WordVec} {p : Quad} {i : Fin 16} (h : i ∉ p.toList) :
    (quarterRoundAt v p)[i] = v[i] := by
  simp only [Quad.toList, List.mem_cons, List.not_mem_nil, or_false, not_or] at h
  obtain ⟨ha, hb, hc, hd⟩ := h
  simp only [quarterRoundAt, quarterRound]
  rw [getElem_mix_ne ha, getElem_mix_ne hd, getElem_mix_ne hc, getElem_mix_ne hb]

/-- Vectors that agree on a list of positions still do after a step among them. -/
theorem mix_agree {l : List (Fin 16)} {v w : WordVec} (h : ∀ i ∈ l, v[i] = w[i]) {t x y : Fin 16} (ht : t ∈ l) (hx : x ∈ l)
    (hy : y ∈ l) (n : Nat) : ∀ i ∈ l, (mix v t x y n)[i] = (mix w t x y n)[i] := by
  intro i hi
  rw [getElem_mix, getElem_mix, h t ht, h x hx, h y hy, h i hi]

/-- The stage reads its own four words only. -/
theorem quarterRound_agree {v w : WordVec} {p : Quad} (h : ∀ i ∈ p.toList, v[i] = w[i]) :
    ∀ i ∈ p.toList, (quarterRoundAt v p)[i] = (quarterRoundAt w p)[i] := by
  have ha : p.1 ∈ p.toList := by simp [Quad.toList]
  have hb : p.2.1 ∈ p.toList := by simp [Quad.toList]
  have hc : p.2.2.1 ∈ p.toList := by simp [Quad.toList]
  have hd : p.2.2.2 ∈ p.toList := by simp [Quad.toList]
  exact mix_agree (mix_agree (mix_agree (mix_agree h hb ha hd 7) hc hb ha 9) hd hc hb 13) ha hd hc 18

/-- The stage commutes with a step on other positions. -/
theorem quarterRound_mix_comm {p : Quad} {t x y : Fin 16} (ht : t ∉ p.toList) (hx : x ∉ p.toList) (hy : y ∉ p.toList)
    (v : WordVec) (n : Nat) : quarterRoundAt (mix v t x y n) p = mix (quarterRoundAt v p) t x y n := by
  simp only [Quad.toList, List.mem_cons, List.not_mem_nil, or_false, not_or] at ht hx hy
  obtain ⟨ta, tb, tc, td⟩ := ht
  obtain ⟨xa, xb, xc, xd⟩ := hx
  obtain ⟨ya, yb, yc, yd⟩ := hy
  simp only [quarterRoundAt, quarterRound]
  rw [mix_comm tb xb yb (Ne.symm ta) (Ne.symm td), mix_comm tc xc yc (Ne.symm tb) (Ne.symm ta),
    mix_comm td xd yd (Ne.symm tc) (Ne.symm tb), mix_comm ta xa ya (Ne.symm td) (Ne.symm tc)]

/-- Stages on disjoint positions commute (R105). -/
theorem quarterRound_comm {p q : Quad} (h : p.toList.Disjoint q.toList) (v : WordVec) :
    quarterRoundAt (quarterRoundAt v q) p = quarterRoundAt (quarterRoundAt v p) q := by
  have out : ∀ {i}, i ∈ q.toList → i ∉ p.toList := fun hi hp => h hp hi
  have ha : q.1 ∉ p.toList := out (by simp [Quad.toList])
  have hb : q.2.1 ∉ p.toList := out (by simp [Quad.toList])
  have hc : q.2.2.1 ∉ p.toList := out (by simp [Quad.toList])
  have hd : q.2.2.2 ∉ p.toList := out (by simp [Quad.toList])
  change quarterRoundAt (mix (mix (mix (mix v q.2.1 q.1 q.2.2.2 7) q.2.2.1 q.2.1 q.1 9) q.2.2.2 q.2.2.1 q.2.1 13) q.1 q.2.2.2
    q.2.2.1 18) p = _
  rw [quarterRound_mix_comm ha hd hc, quarterRound_mix_comm hd hc hb, quarterRound_mix_comm hc hb ha,
    quarterRound_mix_comm hb ha hd]
  rfl

/-- The four steps backward undo the stage on distinct positions (R108). -/
theorem quarterRoundInv_quarterRound {a b c d : Fin 16} (h : [a, b, c, d].Nodup) (v : WordVec) :
    quarterRoundInv (quarterRound v a b c d) a b c d = v := by
  simp only [List.nodup_cons, List.mem_cons, List.not_mem_nil, or_false, not_or, not_false_eq_true, List.nodup_nil,
    and_true] at h
  obtain ⟨⟨ab, ac, ad⟩, ⟨bc, bd⟩, cd⟩ := h
  simp only [quarterRoundInv, quarterRound]
  rw [mix_mix (Ne.symm ad) (Ne.symm ac), mix_mix cd bd, mix_mix bc ac, mix_mix ab (Ne.symm bd)]

/-- The stage undoes the four steps backward on distinct positions (R108). -/
theorem quarterRound_quarterRoundInv {a b c d : Fin 16} (h : [a, b, c, d].Nodup) (v : WordVec) :
    quarterRound (quarterRoundInv v a b c d) a b c d = v := by
  simp only [List.nodup_cons, List.mem_cons, List.not_mem_nil, or_false, not_or, not_false_eq_true, List.nodup_nil,
    and_true] at h
  obtain ⟨⟨ab, ac, ad⟩, ⟨bc, bd⟩, cd⟩ := h
  simp only [quarterRoundInv, quarterRound]
  rw [mix_mix ab (Ne.symm bd), mix_mix bc ac, mix_mix cd bd, mix_mix (Ne.symm ad) (Ne.symm ac)]

/-- The stage on distinct positions is a bijection (R108). -/
theorem quarterRound_bijective {a b c d : Fin 16} (h : [a, b, c, d].Nodup) :
    Function.Bijective (fun v => quarterRound v a b c d) :=
  ⟨Function.LeftInverse.injective (g := fun v => quarterRoundInv v a b c d) (quarterRoundInv_quarterRound h),
   Function.RightInverse.surjective (g := fun v => quarterRoundInv v a b c d) (quarterRound_quarterRoundInv h)⟩

/-- A step on the zero vector leaves it zero. -/
theorem mix_zero (t x y : Fin 16) (n : Nat) : mix (Vector.replicate 16 0) t x y n = Vector.replicate 16 0 := by
  refine wordVec_ext fun i => ?_
  rw [getElem_mix]
  have h : ∀ j : Fin 16, (Vector.replicate 16 (0 : Word))[j] = 0 := fun j => by simp
  split
  · rw [h, h, h, h]
    have : rotl (0 + 0) n = 0 := by
      refine BitVec.eq_of_getLsbD_eq fun k hk => ?_
      simp [rotl]
    rw [this, BitVec.xor_self]; rfl
  · rfl

/-- The zero vector is a fixed point of the quarter-round, at any positions (R107). -/
@[simp] theorem quarterRound_zero (a b c d : Fin 16) : quarterRound (Vector.replicate 16 0) a b c d = Vector.replicate 16 0 := by
  simp only [quarterRound, mix_zero]

/-- The zero vector is a fixed point of the double round (R107). -/
@[simp] theorem doubleRound_zero : doubleRound (Vector.replicate 16 0) = Vector.replicate 16 0 := by
  simp only [doubleRound, rowRound, columnRound, quarterRound_zero]

end Sys2Proof.Machine
end

