-- ==== Sys2Proof/Tests/Slice0.lean ====
section
/-! SUPPORT. The model's own tests. Expected values come from the spec: the encodings of 30_encoding.md R72 and R74 written out by hand, and
the vectors of 95_test_vectors.md (derived there, or published where a comment says so). Then one witness per statement that has
hypotheses: a state and operands that meet them. -/

namespace Sys2Proof.Tests.Slice0

set_option Elab.async false

open Sys2Proof Sys2Proof.Machine

/-! ## Decoding: words written out field by field (R72, R74), and the words of 95_test_vectors.md section 2 -/

/-- Format L: RSVD 0, NLEN 8, KLEN 32, OPC 1. -/
theorem test_decode_init : decode (0#12 ++ 8#8 ++ 32#8 ++ 1#4) = .ok (.init 32 8) := by decide

/-- CMD[7:4] is the low half of KLEN, CMD[19:16] the high half of NLEN. -/
theorem test_decode_init_fields : decode 0x000A5C31 = .ok (.init 0xC3 0xA5) := by decide

/-- Format N: RSVD 0, OPC 2, 3, 4, 6, 7, 8. -/
theorem test_decode_format_n :
    [0#28 ++ 2#4, 0#28 ++ 3#4, 0#28 ++ 4#4, 0#28 ++ 6#4, 0#28 ++ 7#4, 0#28 ++ 8#4].map decode =
      [.ok .setPos, .ok .getPos, .ok .genBlock, .ok .dround, .ok .permute, .ok .getInfo] := by decide

/-- Format Q: RSVD 0, ID 13, IC 14, IB 12, IA 15, OPC 5; the four fields differ. -/
theorem test_decode_qround : decode (0#12 ++ 13#4 ++ 14#4 ++ 12#4 ++ 15#4 ++ 5#4) = .ok (.qround 15 12 14 13) := by decide

theorem test_decode_illegal :
    [0x00108201, 0x00000014, 0x00100005, 0x00000000, 0x00000009, 0x0000000F, 0x80000004].map decode =
      [.error .reservedField, .error .reservedField, .error .reservedField, .error .reservedOpcode, .error .reservedOpcode,
        .error .reservedOpcode, .error .reservedField] := by decide

/-- A table word of the opcode table's 32 bits. -/
theorem test_decode_table_word : decodeTableWord 32 0x000EDCF5 = some (.qround 15 12 13 14) := by decide

/-! ## Well-formedness: a line that each check refuses (R85) -/

theorem test_wf_short_key : AsmLine.wellFormed (.din (.keyNonce (List.replicate 31 0) (List.replicate 8 0))) = false := by decide
theorem test_wf_long_nonce : AsmLine.wellFormed (.new (List.replicate 32 0) (List.replicate 9 0)) = false := by decide
theorem test_wf_position : AsmLine.wellFormed (.seek (2 ^ 64)) = false := by decide
theorem test_wf_words : AsmLine.wellFormed (.din (.words (List.replicate 15 0))) = false := by decide
theorem test_wf_klen : AsmLine.wellFormed (.init (some 256) none) = false := by decide
theorem test_wf_nlen : AsmLine.wellFormed (.init none (some 256)) = false := by decide
theorem test_wf_operand_a : AsmLine.wellFormed (.qround 16 0 0 0) = false := by decide
theorem test_wf_operand_b : AsmLine.wellFormed (.qround 0 16 0 0) = false := by decide
theorem test_wf_operand_c : AsmLine.wellFormed (.qr 0 0 16 0) = false := by decide
theorem test_wf_operand_d : AsmLine.wellFormed (.qr 0 0 0 16) = false := by decide
theorem test_wf_refused : assemble [.rewind, .init (some 256) none] = none := by decide

/-! ## Small states -/

/-- A bus from its first bytes, the rest zero. -/
def bytes (bs : List Nat) : Bus := Vector.ofFn fun k => BitVec.ofNat 8 (bs.getD k.val 0)

/-- A bus from its first words, the rest zero. -/
def vec (ws : List Word) : Bus := wordsToBus (Vector.ofFn fun i => ws.getD i.val 0)

/-- 64 bytes as one hexadecimal number, byte 0 first. -/
def hex (b : Bus) : Nat := b.toList.foldl (fun n x => n * 256 + x.toNat) 0

/-- The words of a bus. -/
def words (b : Bus) : List Word := (busWords b).toList

def ramp : Bus := vec [0, 1, 2, 3, 4, 5, 6, 7, 8, 9, 10, 11, 12, 13, 14, 15]

/-- The named inputs kr, nr, k80, n0 and z of 95_test_vectors.md. -/
def kr : List Nat := (List.range 32).map (· + 1)
def nr : List Nat := (List.range 8).map (· + 101)
def k80 : List Nat := 0x80 :: List.replicate 31 0
def n0 : List Nat := List.replicate 8 0
def z : List Nat := List.replicate 32 0

/-- The reset state with another R. -/
def resetR (r : Byte) : State := State.resetFor ⟨r⟩

/-- An instance with a key and a nonce, at block n. -/
def inst (key nonce : List Nat) (n : Position) : State :=
  (State.reset.load (busKey (bytes (key ++ nonce))) (busNonce (bytes (key ++ nonce)))).setCtr n

/-- The state an outcome gives. -/
def nextOf (o : Host.Outcome State Fault Refusal) : Option State :=
  match o with
  | .next t => some t
  | .fault _ => none
  | .refused _ => none

/-- One step on a command: what `f` reads of the next state. -/
def after {α : Type} (s : State) (cmd : Word) (din : Bus) (f : State → α) : Option α := (nextOf (step (s.present cmd din))).map f

theorem exists_next {o : Host.Outcome State Fault Refusal} {P : State → Prop} [DecidablePred P]
    (h : (nextOf o).any (fun t => decide (P t)) = true) : ∃ t, o = .next t ∧ P t := by
  cases o with
  | next t => exact ⟨t, rfl, by simpa [nextOf] using h⟩
  | fault r => exact nomatch r
  | refused r => simp [nextOf] at h

/-! ## One step per command (95_test_vectors.md sections 3 to 7) -/

/-- Section 5.1. -/
theorem test_init_image :
    after State.reset 0x00008201 (bytes (kr ++ nr)) (fun t => (t.matrix.toList, t.keyed, t.rsp, t.dout)) =
      some ([0x61707865, 0x04030201, 0x08070605, 0x0c0b0a09, 0x100f0e0d, 0x3320646e, 0x68676665, 0x6c6b6a69, 0x00000000, 0x00000000,
        0x79622d32, 0x14131211, 0x18171615, 0x1c1b1a19, 0x201f1e1d, 0x6b206574], true, some 0x10, zeroBus) := by decide +kernel

/-- Section 6: INIT klen=32, nlen=12 with key kr and ctr 7 changes nothing. -/
theorem test_init_bad_length :
    after (inst kr nr 7) 0x0000C201 (bytes (z ++ n0)) (fun t => (t.matrix, t.keyed, t.rsp)) =
      some ((inst kr nr 7).matrix, true, some 0x11) := by decide +kernel

theorem test_set_pos :
    after (inst kr nr 9) 0x00000002 (bytes [0, 0, 0, 0, 1]) (fun t => (t.word? 8, t.word? 9, t.rsp, t.dout)) =
      some (some 0, some 1, some 0x10, zeroBus) := by decide +kernel

/-- Section 7. -/
theorem test_set_pos_unkeyed :
    after State.reset 0x00000002 (bytes [5]) (fun t => (t.word? 8, t.rsp)) = some (none, some 0x03) := by decide +kernel

/-- P5 step 3. -/
theorem test_get_pos :
    after (inst kr nr 0x0000000100000000) 0x00000003 ramp (fun t => (t.dout, t.rsp)) =
      some (bytes [0, 0, 0, 0, 1, 0, 0, 0], some 0x10) := by decide +kernel

theorem test_get_pos_exhausted :
    after (inst kr nr 0xFFFFFFFFFFFFFFFF) 0x00000003 ramp (fun t => (t.dout, t.rsp)) =
      some (bytes [255, 255, 255, 255, 255, 255, 255, 255], some 0x10) := by decide +kernel

/-- Section 1.1: the published block of (k80, n0) at 0. -/
theorem test_gen_block_published :
    after (inst k80 n0 0) 0x00000004 ramp (fun t => (hex t.dout, t.ctr, t.rsp)) =
      some (0xE3BE8FDD8BECA2E3EA8EF9475B29A6E7003951E1097A5C38D23B7A5FAD9F6844B22C97559E2723C7CBBD3FE4FC8D9A0744652A83E72A9C461876AF4D7EF1A117,
        1, some 0x10) := by decide +kernel

/-- P5 step 2: the carry from S[8] into S[9]. -/
theorem test_gen_block_carry :
    after (inst kr nr 0x00000000FFFFFFFF) 0x00000004 ramp (fun t => (hex t.dout, t.word? 8, t.word? 9)) =
      some (0x9ec639b899171da3b29fa14b13fad42ebcf9661e0339f851eeaa32b684ec9f1732ffdf7536b7d4aeee5964cde4babe2f57b4c3f7f01d9bb2984cb85692fdf3af,
        some 0, some 1) := by decide +kernel

/-- Section 3: a + d = 2^32. -/
theorem test_qround_wrap :
    after State.reset 0x00032105 (vec [0x80000000, 0, 0, 0x80000000]) (fun t => (t.dout, t.rsp)) =
      some (vec [0x84020080, 0, 0x00000100, 0x80200000], some 0x00) := by decide +kernel

/-- Section 3: aliased a = c, b = d. -/
theorem test_qround_aliased :
    after State.reset 0x00010105 (vec [1, 2, 3, 4]) (fun t => t.dout) = some (vec [0x9e0e85cc, 0x60f06182, 3, 4]) := by decide +kernel

/-- Section 1.1: a published quarter-round. -/
theorem test_quarter_round_published :
    quarterRound4 0xd3917c5b 0x55f1c407 0x52a58a7a 0x8f887a3b = #v[0x3e2f308c, 0xd90a8f36, 0x6ab2a923, 0x2883524c] := by decide +kernel

/-- Section 1.1: the published double round. -/
theorem test_dround_published :
    after State.reset 0x00000006 (vec [1]) (fun t => words t.dout) =
      some [0x8186a22d, 0x0040a284, 0x82479210, 0x06929051, 0x08000090, 0x02402200, 0x00004000, 0x00800000, 0x00010200, 0x20400000,
        0x08008104, 0x00000000, 0x20500000, 0xa0000040, 0x0008180a, 0x612a8020] := by decide +kernel

theorem test_dround_ramp :
    after (inst kr nr 0) 0x00000006 ramp (fun t => (words t.dout, t.rsp)) =
      some ([0x5ff84399, 0xe8e8dc91, 0x7dd7be10, 0x135421db, 0x96c9d24f, 0xbdbf75d0, 0x1a88d53c, 0x87d3e112, 0x8e085c1c, 0xe840980f,
        0x10b5c561, 0x4a2ee5e8, 0x9f51f845, 0x1e245252, 0xc952ffa0, 0xd7f6853f], some 0x10) := by decide +kernel

theorem test_permute_r10 :
    after State.reset 0x00000007 ramp (fun t => words t.dout) =
      some [0xe1a0ebe0, 0x06032a01, 0x1ec19922, 0x91ffb36b, 0x83068331, 0xa7c06e27, 0x75b43861, 0xccf85177, 0xf61ba818, 0xab1b8969,
        0xec9ed7ec, 0x478636ae, 0x745dd6a1, 0x8bbe7220, 0xa1cc9bd1, 0x5fc70ce1] := by decide +kernel

theorem test_permute_r4 :
    after (resetR 4) 0x00000007 ramp (fun t => words t.dout) =
      some [0x4fdd18f5, 0xe08388b8, 0xc05479a6, 0x7086ab59, 0x0888bb7f, 0x75102850, 0x58a0851c, 0x166cf51b, 0x0f2a4a95, 0x232514c9,
        0x0bc658cd, 0x681b412b, 0x05865321, 0xd271b807, 0x2a045968, 0x5d47fa4b] := by decide +kernel

theorem test_get_info :
    after State.reset 0x00000008 ramp (fun t => (t.dout, t.rsp)) = some (bytes [0x40, 0x20, 0x08, 0x0a], some 0x00) := by
  decide +kernel

theorem test_get_info_r4 :
    after (resetR 4) 0x00000008 ramp (fun t => t.dout) = some (bytes [0x40, 0x20, 0x08, 0x04]) := by decide +kernel

/-! ## The port (sections 2 and 7) -/

theorem test_illegal_before_not_initialised :
    after State.reset 0x00000014 ramp (fun t => (t.rsp, t.dout)) = some (some 0x04, zeroBus) := by decide +kernel

theorem test_illegal_before_exhausted :
    after (inst z n0 0xFFFFFFFFFFFFFFFF) 0x00000014 ramp (fun t => (t.rsp, t.ctr)) = some (some 0x14, 0xFFFFFFFFFFFFFFFF) := by
  decide +kernel

/-- A table word presented to the reset state is the very next command. -/
theorem test_with_fetch_word :
    nextOf (step (State.reset.withFetchWord 32 0x00000008)) = nextOf (exec .getInfo State.reset) := by decide +kernel

/-! ## The host (section 8) -/

/-- A byte string in the host's memory from address 0. -/
def memOf (bs : List Nat) : Memory := (bs.zipIdx).foldl (fun m b => m.write b.2 (BitVec.ofNat 8 b.1)) []

def byteList (bs : List Nat) : List Byte := bs.map (BitVec.ofNat 8)

/-- A host after `new`. -/
def host (key nonce : List Nat) (m : Memory) : Orchestrator :=
  ((Orchestrator.start State.reset m).new (byteList key) (byteList nonce)).1

def read16 (m : Memory) : List Byte := (List.range 16).map m.read

/-- H2: "Salsa20 hardware". -/
def message : List Nat := [0x53, 0x61, 0x6c, 0x73, 0x61, 0x32, 0x30, 0x20, 0x68, 0x61, 0x72, 0x64, 0x77, 0x61, 0x72, 0x65]

/-- H2, the first pass. -/
theorem test_host_apply :
    let r := (host kr nr (memOf message)).applyKeystream 0 16
    (read16 r.1.mem, r.1.cur, r.1.block.ctr, r.2) =
      (byteList [0x7a, 0xd7, 0xfe, 0xf2, 0xca, 0x9d, 0x66, 0x11, 0x40, 0xd8, 0x03, 0xd5, 0x17, 0xb8, 0xb7, 0x91], 16, 1, .ok) := by
  decide +kernel

/-- H3: `seek_bytes(65477)`, then five zero bytes. -/
theorem test_host_byte_seek :
    let r := (((host k80 n0 []).seekBytes 65477).1).applyKeystream 0 5
    ((List.range 5).map r.1.mem.read, r.1.cur, r.1.block.ctr, r.2) =
      (byteList [0x41, 0xf5, 0x93, 0x06, 0x9a], 10, 1024, .ok) := by decide +kernel

/-! ## Witnesses: states and operands that meet each statement's hypotheses, at the boundaries of its clauses -/

/-- A state that is about to serve the event `e`. -/
def facing (s : State) (e : PortEvent) : State := { s with pending := [e] }

/-- Keyed states at the boundaries of ctr. -/
def atZero : State := inst z n0 0
def atLast : State := inst z n0 0xFFFFFFFFFFFFFFFE
def atEnd : State := inst z n0 0xFFFFFFFFFFFFFFFF

theorem witness_EncodeOfDecodeIsTheWord :
    decode 0x00000001 = .ok (.init 0 0) ∧ decode 0x000FFFF1 = .ok (.init 255 255) ∧ decode 0x000FFFF5 = .ok (.qround 15 15 15 15) ∧
      decode 0x00000008 = .ok .getInfo := by decide

theorem witness_LegalCommandWordsAndTheirNumber :
    (∀ w ∈ [(0x000FFFF1 : Word), 0x00000002, 0x00000008], LegalCommand w) ∧
      ∀ w ∈ [(0x00100001 : Word), 0x00000012, 0x00000000, 0x00000009], ¬ LegalCommand w := by
  simp only [List.forall_mem_cons, List.not_mem_nil, false_imp_iff, implies_true, and_true]
  exact ⟨⟨by decide, by decide, by decide⟩, by decide, by decide, by decide, by decide⟩

/-- Every opcode with its reserved field zero, with its lowest and its highest reserved bit set, and the reserved opcodes at their ends. -/
theorem witness_DecoderFollowsItsFieldTable :
    (∀ w ∈ [(0x00100001 : Word), 0x80000001, 0x00100005, 0x80000005], w.extractLsb' 20 12 ≠ 0) ∧
    (∀ w ∈ [(0x000FFFF1 : Word), 0x000FFFF5], w.extractLsb' 20 12 = 0) ∧
    (∀ w ∈ [(0x00000012 : Word), 0x00000013, 0x00000014, 0x80000006, 0x80000007, 0x80000008], w.extractLsb' 4 28 ≠ 0) ∧
    (∀ w ∈ [(0x00000002 : Word), 0x00000003, 0x00000004, 0x00000006, 0x00000007, 0x00000008], w.extractLsb' 4 28 = 0) ∧
    ((0x00000010 : Word).extractLsb' 0 4 = 0) ∧ 9 ≤ ((0x00000009 : Word).extractLsb' 0 4).toNat ∧
    9 ≤ ((0xFFFFFFFF : Word).extractLsb' 0 4).toNat := by
  simp only [List.forall_mem_cons, List.not_mem_nil, false_imp_iff, implies_true, and_true]
  decide +kernel

/-- A word of each reserved kind, presented to a state. -/
theorem witness_ReservedWordsAreAnsweredIllegal :
    ((0x00000000 : Word).extractLsb' 0 4 = 0) ∧ 9 ≤ ((0x00000009 : Word).extractLsb' 0 4).toNat ∧
    ((0x00100001 : Word).extractLsb' 0 4 = 1 ∧ (0x00100001 : Word).extractLsb' 20 12 ≠ 0) ∧
    ((0x80000005 : Word).extractLsb' 0 4 = 5 ∧ (0x80000005 : Word).extractLsb' 20 12 ≠ 0) ∧
    ((0x00000014 : Word).extractLsb' 0 4 = 4 ∧ (0x00000014 : Word).extractLsb' 4 28 ≠ 0) ∧
    (facing atZero (.command 0x00000014 ramp)).pending = [.command 0x00000014 ramp] := by decide +kernel

theorem witness_AssemblerExpandsAndRefuses :
    (byteList kr).length = 32 ∧ (byteList nr).length = 8 ∧ 2 ^ 64 - 1 < 2 ^ 64 ∧ 255 < 256 ∧ 15 < 16 ∧
    AsmLine.init (some 256) (some 8) ∈ [AsmLine.rewind, .init (some 256) (some 8)] ∧
    AsmLine.init (some 32) (some 256) ∈ [AsmLine.init (some 32) (some 256)] ∧
    AsmLine.qround 16 0 0 0 ∈ [AsmLine.qround 16 0 0 0] ∧ AsmLine.qround 0 0 0 16 ∈ [AsmLine.getInfo, .qround 0 0 0 16] := by decide

theorem witness_StepRunsTheDecodedCommand :
    (facing State.reset (.command 0x00000008 ramp)).pending = [.command 0x00000008 ramp] ∧ decode 0x00000008 = .ok .getInfo :=
  ⟨rfl, rfl⟩

theorem witness_IdleBlockWaits : State.reset.pending = [] := rfl

theorem witness_ResetEventRestoresTheResetState :
    (facing atEnd .reset).pending = [.reset] ∧ ∃ t, step (facing atEnd .reset) = .next t ∧ ((facing atEnd .reset).keyed = true ∧
      t.keyed = false) := ⟨rfl, exists_next (by decide +kernel)⟩

/-- Two unkeyed states that differ in every word without a value, serving GEN_BLOCK. -/
theorem witness_ResetValuesAndNoReadOfAWordWithoutValue :
    let s := facing State.reset (.command 0x00000004 ramp)
    let t := { s with key := Vector.replicate 8 1, nonce := Vector.replicate 2 1, ctrLo := 1, ctrHi := 1 }
    s.keyed = false ∧ SameValues s t ∧ s ≠ t ∧ ∃ s', step s = .next s' ∧ s'.rsp = some 0x03 :=
  ⟨rfl, ⟨rfl, rfl, by decide, rfl, rfl, rfl, rfl⟩, by decide +kernel, exists_next (by decide +kernel)⟩

theorem witness_CommandCutByResetHasNoEffect :
    (facing atZero (.commandCutByReset 0x00000004 ramp)).pending = [.commandCutByReset 0x00000004 ramp] := rfl

/-- A command, and for the second clause a reset and an idle step. -/
theorem witness_EveryCommandIsAnsweredByItsStep :
    (facing State.reset (.command 0x0000000F ramp)).pending = [.command 0x0000000F ramp] ∧
    (∀ cmd din rest, (facing atZero .reset).pending ≠ .command cmd din :: rest) ∧
    (∃ t, step (facing atZero .reset) = .next t ∧ t.rsp = none) ∧
    (∀ cmd din rest, State.reset.pending ≠ .command cmd din :: rest) ∧ ∃ t, step State.reset = .next t ∧ t = State.reset :=
  ⟨rfl, by simp [facing], exists_next (by decide +kernel), by simp [State.reset, State.resetFor], exists_next (by decide +kernel)⟩

theorem witness_ResponseWordHasItsFormat :
    (facing atEnd (.command 0x00000004 ramp)).pending = [.command 0x00000004 ramp] ∧
      ∃ t, step (facing atEnd (.command 0x00000004 ramp)) = .next t ∧ t.rsp = some 0x12 := ⟨rfl, exists_next (by decide +kernel)⟩

/-- Each cause of R200, its state and its response; and a command that completes at the last position below exhaustion. -/
theorem witness_StatusCodesHaveTheirCauses :
    ((∀ i, decode 0x00000009 ≠ .ok i) ∧ ∃ t, step (facing State.reset (.command 0x00000009 ramp)) = .next t ∧ t.rsp = some 0x04) ∧
    (decode 0x00008211 = .ok (.init 33 8) ∧
      ∃ t, step (facing State.reset (.command 0x00008211 ramp)) = .next t ∧ t.rsp = some 0x01) ∧
    (∀ p ∈ [((0x00000002 : Word), Instr.setPos), (0x00000003, .getPos), (0x00000004, .genBlock)], decode p.1 = .ok p.2) ∧
    (State.reset.keyed = false ∧
      ∃ t, step (facing State.reset (.command 0x00000004 ramp)) = .next t ∧ t.rsp = some 0x03) ∧
    (atEnd.keyed = true ∧ atEnd.ctr = 0xFFFFFFFFFFFFFFFF ∧
      ∃ t, step (facing atEnd (.command 0x00000004 ramp)) = .next t ∧ t.rsp = some 0x12) ∧
    ∃ t, step (facing atLast (.command 0x00000004 ramp)) = .next t ∧ t.rsp = some 0x10 :=
  ⟨⟨by rintro i ⟨⟩, exists_next (by decide +kernel)⟩, ⟨rfl, exists_next (by decide +kernel)⟩, by decide,
    ⟨rfl, exists_next (by decide +kernel)⟩, ⟨rfl, by decide +kernel, exists_next (by decide +kernel)⟩, exists_next (by decide +kernel)⟩

theorem witness_FailingCommandChangesNoBlockState :
    ∃ t, step (facing atZero (.command 0x00008111 ramp)) = .next t ∧
      (t.rsp = some 0x11 ∧ (0x11 : Word).extractLsb' 0 4 ≠ 0) := exists_next (by decide +kernel)

theorem inv_reset : State.reset.Inv :=
  ⟨by decide, fun _ => ⟨rfl, rfl⟩, by rintro w ⟨⟩⟩

theorem witness_EveryStepKeepsTheInvariant :
    (facing State.reset (.command 0x00008201 ramp)).Inv ∧
      ∃ t, step (facing State.reset (.command 0x00008201 ramp)) = .next t ∧ t.rsp = some 0x10 :=
  ⟨⟨by decide, fun _ => ⟨rfl, rfl⟩, by rintro w ⟨⟩⟩, exists_next (by decide +kernel)⟩

theorem witness_InvariantHoldsAfterReset : Config.Legal ⟨1⟩ ∧ Config.Legal ⟨255⟩ ∧ ¬ Config.Legal ⟨0⟩ := by decide

theorem witness_InitLoadsKeyAndNonce :
    ((31 : Fin 256).val ≠ 32) ∧ ((33 : Fin 256).val ≠ 32) ∧ ((0 : Fin 256).val ≠ 32) ∧ ((9 : Fin 256).val ≠ 8) ∧
    ((0x00100001 : Word).extractLsb' 0 4 = 1 ∧ (0x00100001 : Word).extractLsb' 20 12 ≠ 0) := by decide

theorem witness_SetPosWritesTheCounter :
    atEnd.keyed = true ∧ State.reset.keyed = false ∧
    ((0x00000012 : Word).extractLsb' 0 4 = 2 ∧ (0x00000012 : Word).extractLsb' 4 28 ≠ 0) := by decide +kernel

theorem witness_GetPosReadsTheCounter :
    atEnd.keyed = true ∧ State.reset.keyed = false ∧
    ((0x80000003 : Word).extractLsb' 0 4 = 3 ∧ (0x80000003 : Word).extractLsb' 4 28 ≠ 0) := by decide +kernel

theorem witness_GenBlockMakesTheBlockAndAdvances :
    (atZero.keyed = true ∧ ¬ (atZero.ctrLo = 0xFFFFFFFF ∧ atZero.ctrHi = 0xFFFFFFFF)) ∧
    (atLast.keyed = true ∧ ¬ (atLast.ctrLo = 0xFFFFFFFF ∧ atLast.ctrHi = 0xFFFFFFFF)) ∧ State.reset.keyed = false ∧
    (atEnd.keyed = true ∧ atEnd.ctrLo = 0xFFFFFFFF ∧ atEnd.ctrHi = 0xFFFFFFFF) ∧
    ((0x00000014 : Word).extractLsb' 0 4 = 4 ∧ (0x00000014 : Word).extractLsb' 4 28 ≠ 0) := by decide +kernel

theorem witness_QroundAppliesOneQuarterRound :
    ((0x000FFFF5 : Word).extractLsb' 0 4 = 5 ∧ (0x000FFFF5 : Word).extractLsb' 20 12 = 0) ∧
    ((0x00100005 : Word).extractLsb' 0 4 = 5 ∧ (0x00100005 : Word).extractLsb' 20 12 ≠ 0) := by decide

theorem witness_DroundAppliesOneDoubleRound :
    (0x00000016 : Word).extractLsb' 0 4 = 6 ∧ (0x00000016 : Word).extractLsb' 4 28 ≠ 0 := by decide

theorem witness_PermuteAppliesTheDoubleRounds :
    (resetR 1).config.rounds = 1 ∧ (0x00000017 : Word).extractLsb' 0 4 = 7 ∧ (0x00000017 : Word).extractLsb' 4 28 ≠ 0 := by decide

theorem witness_GetInfoReadsInfo :
    (0x00000018 : Word).extractLsb' 0 4 = 8 ∧ (0x00000018 : Word).extractLsb' 4 28 ≠ 0 := by decide

theorem witness_FailingInitKeepsTheInstance :
    ((0x00100001 : Word).extractLsb' 0 4 = 1 ∧ (0x00100001 : Word).extractLsb' 20 12 ≠ 0) ∧
    ((0x000081F1 : Word).extractLsb' 0 4 = 1 ∧ (0x000081F1 : Word).extractLsb' 20 12 = 0 ∧ (0x000081F1 : Word).extractLsb' 4 8 ≠ 32) ∧
    ((0x00009201 : Word).extractLsb' 0 4 = 1 ∧ (0x00009201 : Word).extractLsb' 20 12 = 0 ∧ (0x00009201 : Word).extractLsb' 12 8 ≠ 8) ∧
    (facing atZero (.command 0x00009201 ramp)).pending = [.command 0x00009201 ramp] := by decide +kernel

theorem witness_CounterIsHighWordThenLowWord : atEnd.keyed = true := rfl

theorem witness_InfoHasItsFields : ∃ t, step (facing (resetR 255) (.command 0x00000008 ramp)) = .next t ∧ t.rsp = some 0x00 :=
  exists_next (by decide +kernel)

theorem witness_BusViewsAreLittleEndian : 0 < 64 ∧ 63 < 64 := by decide

theorem witness_PositionOnTheBuses : atEnd.keyed = true := rfl

/-- An all-zero group in a vector that is not zero. -/
theorem witness_ZeroVectorIsFixed :
    (busWords (vec [0, 0, 0, 0, 1]))[0] = 0 ∧ (busWords (vec [0, 0, 0, 0, 1]))[3] = 0 ∧ (busWords (vec [0, 0, 0, 0, 1]))[4] = 1 := by
  decide +kernel

theorem witness_QuarterRoundsOfARoundCommute :
    List.Perm [((15 : Fin 16), (3 : Fin 16), (7 : Fin 16), (11 : Fin 16)), (0, 4, 8, 12), (5, 9, 13, 1), (10, 14, 2, 6)]
      [(0, 4, 8, 12), (5, 9, 13, 1), (10, 14, 2, 6), (15, 3, 7, 11)] ∧
    List.Perm [((15 : Fin 16), (12 : Fin 16), (13 : Fin 16), (14 : Fin 16)), (0, 1, 2, 3), (5, 6, 7, 4), (10, 11, 8, 9)]
      [(0, 1, 2, 3), (5, 6, 7, 4), (10, 11, 8, 9), (15, 12, 13, 14)] := by decide

theorem witness_QuarterRoundIsFourStepsInOrder :
    (4 : Fin 16) ≠ 0 ∧ (4 : Fin 16) ≠ 1 ∧ (4 : Fin 16) ≠ 2 ∧ (4 : Fin 16) ≠ 3 := by decide

theorem witness_RoundFunctionIsInvertible :
    (0 : Fin 16) ≠ 4 ∧ (0 : Fin 16) ≠ 8 ∧ (0 : Fin 16) ≠ 12 ∧ (4 : Fin 16) ≠ 8 ∧ (4 : Fin 16) ≠ 12 ∧ (8 : Fin 16) ≠ 12 := by decide

/-- A keyed and an unkeyed state with the same DIN. -/
theorem witness_RoundCommandsReadOnlyDin :
    let s := { atEnd with din := ramp }
    let t := { State.reset with din := ramp }
    s.din = t.din ∧ s.config = t.config ∧ s.keyed ≠ t.keyed := by decide +kernel

/-- P3 of 95_test_vectors.md, steps 1 to 8: the eight outcomes are next states. -/
theorem witness_FourQroundsComputeARound :
    (∃ t, exec (.qround 0 4 8 12) { State.reset with din := ramp } = .next t ∧
      words t.dout = [0x20560736, 1, 2, 3, 0x00000604, 5, 6, 7, 0x000c0808, 9, 10, 11, 0x81c1800d, 13, 14, 15]) ∧
    (∀ (i : Instr) (s : State), i ∈ [Instr.qround 5 9 13 1, .qround 10 14 2 6, .qround 15 3 7 11, .qround 0 1 2 3, .qround 5 6 7 4,
      .qround 10 11 8 9, .qround 15 12 13 14] → ∃ t, exec i s = .next t) := by
  refine ⟨exists_next (by decide +kernel), fun i s hi => ?_⟩
  simp only [List.mem_cons, List.not_mem_nil, or_false] at hi
  rcases hi with rfl | rfl | rfl | rfl | rfl | rfl | rfl <;> exact ⟨_, rfl⟩

/-- The state of kr, nr with its own matrix on DIN. -/
theorem witness_PermutePlusFeedForwardIsGenBlock :
    let s := { inst kr nr 0 with din := wordsToBus (inst kr nr 0).matrix }
    s.keyed = true ∧ s.ctr ≠ 0xFFFFFFFFFFFFFFFF ∧ busWords s.din = s.matrix ∧
      (∃ p, exec .permute s = .next p ∧ p.rsp = some 0x10) ∧ ∃ g, exec .genBlock s = .next g ∧ g.rsp = some 0x10 :=
  ⟨rfl, by decide +kernel, by decide +kernel, exists_next (by decide +kernel), exists_next (by decide +kernel)⟩

theorem witness_BlockBytesAreTheFeedForwardWords : 15 < 16 ∧ 3 < 4 := by decide

theorem witness_ExhaustionIsReportedAndNotSticky :
    atEnd.keyed = true ∧ atEnd.ctr = 0xFFFFFFFFFFFFFFFF ∧ busPosition (bytes [0xFE, 255, 255, 255, 255, 255, 255, 255]) ≠
      0xFFFFFFFFFFFFFFFF ∧ busPosition zeroBus ≠ 0xFFFFFFFFFFFFFFFF := by decide +kernel

/-- The first block; a GEN_BLOCK after a GEN_BLOCK, an illegal word, GET_POS and a failing INIT; and the last block, k = 2^64 - 2. -/
theorem witness_KthGenBlockReturnsBlockK :
    (atZero.keyed = true ∧ atZero.ctr = 0) ∧
    (([] : List (Word × Bus)).filter (fun c => c.1 = 0x00000004)).length = 0 ∧
    (let cmds := [((0x00000004 : Word), ramp), (0x00000009, ramp), (0x00000003, ramp), (0x00008101, ramp)];
      (∀ c ∈ cmds, decode c.1 ≠ .ok .setPos ∧ decode c.1 ≠ .ok (.init 32 8)) ∧
        (cmds.filter (fun c => c.1 = 0x00000004)).length = 1) ∧
    (let cmds := List.replicate (2 ^ 64 - 2) ((0x00000004 : Word), ramp);
      (∀ c ∈ cmds, decode c.1 ≠ .ok .setPos ∧ decode c.1 ≠ .ok (.init 32 8)) ∧
        (cmds.filter (fun c => c.1 = 0x00000004)).length = 2 ^ 64 - 2 ∧ 2 ^ 64 - 2 < 2 ^ 64 - 1) ∧
    ∃ t, exec .genBlock atLast = .next t ∧ t.rsp = some 0x10 := by
  refine ⟨⟨rfl, by decide +kernel⟩, rfl, ⟨?_, by decide +kernel⟩, ⟨fun c hc => ?_, ?_, by decide⟩, exists_next (by decide +kernel)⟩
  · simp only [List.forall_mem_cons, List.not_mem_nil, false_imp_iff, implies_true, and_true]
    exact ⟨by decide, by decide, by decide, by decide⟩
  · rw [List.eq_of_mem_replicate hc]
    decide
  · rw [List.filter_replicate, if_pos (by decide), List.length_replicate]

/-- As many GEN_BLOCKs as blocks, and one more. -/
theorem witness_GenBlockSucceedsExactlyTwoPow64MinusOneTimes :
    atZero.keyed = true ∧ atZero.ctr = 0 ∧ (List.replicate (2 ^ 64 - 1) zeroBus).length ≤ 2 ^ 64 - 1 ∧
      2 ^ 64 - 1 < (List.replicate (2 ^ 64) zeroBus).length ∧ [zeroBus] ≠ [] :=
  ⟨rfl, by decide +kernel, Nat.le_of_eq List.length_replicate, by rw [List.length_replicate]; decide, by simp⟩

/-- Two instances with one key, nonce and position whose DOUT and DIN differ; and block 0 reached both ways. -/
theorem witness_SeekingGivesTheSameBlockAsCounting :
    let s := inst kr nr 0xFFFFFFFFFFFFFFFE
    let t := { s with din := ramp, dout := ramp }
    (s.keyed = true ∧ t.keyed = true ∧ s.ctr ≠ 0xFFFFFFFFFFFFFFFF ∧ s.key = t.key ∧ s.nonce = t.nonce ∧ s.ctr = t.ctr ∧
      s.config = t.config ∧ (∃ s', exec .genBlock s = .next s' ∧ s'.rsp = some 0x10) ∧
      ∃ t', exec .genBlock t = .next t' ∧ t'.rsp = some 0x10) ∧
    (atZero.keyed = true ∧ atZero.ctr = 0 ∧ [ramp].length < 2 ^ 64 - 1 ∧ busPosition (bytes [1]) = BitVec.ofNat 64 [ramp].length) :=
  ⟨⟨rfl, rfl, by decide +kernel, rfl, rfl, rfl, rfl, exists_next (by decide +kernel), exists_next (by decide +kernel)⟩,
    rfl, by decide +kernel, by decide, by decide +kernel⟩

theorem witness_PositionsFollowTheCommands :
    ({ atZero with din := bytes [0xFE, 255, 255, 255, 255, 255, 255, 255] }.keyed = true) ∧
    busPosition (bytes [0xFE, 255, 255, 255, 255, 255, 255, 255]) ≠ 0xFFFFFFFFFFFFFFFF ∧
    (∃ t, exec .genBlock atLast = .next t ∧ t.rsp = some 0x10) ∧ (∃ t, exec .getPos atEnd = .next t ∧ t.rsp = some 0x10) ∧
    ∃ t, exec .getPos State.reset = .next t ∧ t.rsp = some 0x03 :=
  ⟨rfl, by decide +kernel, exists_next (by decide +kernel), exists_next (by decide +kernel), exists_next (by decide +kernel)⟩

theorem witness_OnlyInitChangesKeyAndNonce :
    (∃ t, step (facing atLast (.command 0x00000004 ramp)) = .next t ∧ t.rsp = some 0x10) ∧
    decode 0x00000004 ≠ .ok (.init 32 8) ∧ decode 0x00008101 ≠ .ok (.init 32 8) ∧ (∃ t, exec .genBlock atLast = .next t ∧ t.rsp = some 0x10) ∧
    atZero.keyed = true :=
  ⟨exists_next (by decide +kernel), by decide, by decide, exists_next (by decide +kernel), rfl⟩

theorem witness_KeyedFollowsInitAndReset :
    atEnd.keyed = true ∧ (∃ t, step (facing State.reset (.command 0x00008201 ramp)) = .next t ∧ (State.reset.keyed = false ∧ t.keyed = true)) ∧
    (∃ t, step (facing atEnd (.command 0x00000004 ramp)) = .next t ∧ (atEnd.keyed = true ∧ t.keyed = true)) :=
  ⟨rfl, exists_next (by decide +kernel), exists_next (by decide +kernel)⟩

/-- A command of each kind that completes, and one that fails. -/
theorem witness_SideEffectsOfEachCommand :
    (∃ t, exec .getInfo State.reset = .next t ∧ t.rsp = some 0x00) ∧ (∃ t, exec .genBlock atLast = .next t ∧ t.rsp = some 0x10) ∧
    (∃ t, exec (.init 32 8) State.reset = .next t ∧ t.rsp = some 0x10) ∧
    (∃ t, exec .genBlock atEnd = .next t ∧ (t.rsp = some 0x12 ∧ (0x12 : Word).extractLsb' 0 4 ≠ 0)) :=
  ⟨exists_next (by decide +kernel), exists_next (by decide +kernel), exists_next (by decide +kernel), exists_next (by decide +kernel)⟩

/-- SET_POS reads 8 bytes: two states whose DIN differs in byte 8 only; INIT reads 40. -/
theorem witness_UnreadDinBytesAreIgnored :
    let s := { atZero with din := bytes [1, 2, 3, 4, 5, 6, 7, 8, 9] }
    let t := { atZero with din := bytes [1, 2, 3, 4, 5, 6, 7, 8, 10] }
    SameButDin s t ∧ s ≠ t ∧ (∀ k (h : k < 64), k < dinBytesRead .setPos → t.din[k] = s.din[k]) ∧
      (∃ s', exec .setPos s = .next s' ∧ s'.rsp = some 0x10) ∧ dinBytesRead (.init 32 8) = 40 :=
  ⟨rfl, by decide +kernel, by decide +kernel, exists_next (by decide +kernel), rfl⟩

/-- Lengths on both sides of each check of `new`. -/
theorem witness_NewBuildsAnInstance :
    (byteList kr).length = 32 ∧ (byteList nr).length = 8 ∧ (List.replicate 31 (0 : Byte)).length ≠ 32 ∧
      (List.replicate 255 (0 : Byte)).length ≠ 32 ∧ (List.replicate 256 (0 : Byte)).length > 255 ∧
      (List.replicate 9 (0 : Byte)).length ≠ 8 ∧ (byteList kr).length = (32 : Fin 256).val ∧ (byteList nr).length = (8 : Fin 256).val ∧
      (List.replicate 255 (0 : Byte)).length = (255 : Fin 256).val ∧ (255 : Fin 256).val ≠ 32 := by decide +kernel

theorem witness_SeeksGoToTheirPosition :
    (host kr nr []).block.keyed = true ∧ (65477 : Position).toNat % 64 ≠ 0 ∧ (0xFFFFFFFFFFFFFFFF : Position).toNat % 64 ≠ 0 := by
  decide +kernel

/-- A host at keystream byte 0, and the success of a call that ends mid-block. -/
theorem host_atByte_zero : (host kr nr (memOf message)).AtByte 0 := by unfold Orchestrator.AtByte; decide +kernel

theorem result_eq {o : Orchestrator × HostResult} {r : HostResult} (h : o.2 = r) : o = (o.1, r) := Prod.ext rfl h

theorem witness_ApplyKeystreamXorsTheKeystream :
    (∃ o', (Orchestrator.start State.reset []).new (byteList kr) (byteList nr) = (o', .ok)) ∧
    (∃ o', (host kr nr []).seekBytes 65477 = (o', .ok)) ∧
    (Memory.WF (host kr nr (memOf message)).mem ∧ (host kr nr (memOf message)).AtByte 0 ∧
      ∃ o', (host kr nr (memOf message)).applyKeystream 0 16 = (o', .ok)) :=
  ⟨⟨_, result_eq (by decide +kernel)⟩, ⟨_, result_eq (by decide +kernel)⟩, by decide +kernel, host_atByte_zero,
    ⟨_, result_eq (by decide +kernel)⟩⟩

/-- A host with one block left, and one at the end of the keystream. -/
def lastHost : Orchestrator := { host kr nr (memOf message) with block := atLast }

def spentHost : Orchestrator := { host kr nr (memOf message) with block := atEnd }

/-- R167: a call of two blocks fails, a later call of one block fails the same way, and a seek below the failing position lets the
next call run. -/
theorem test_host_exhausted :
    let o := (lastHost.applyKeystream 0 65).1
    (lastHost.applyKeystream 0 65).2 = .counterExhausted ∧ (o.applyKeystream 0 1).2 = .counterExhausted ∧
      ((o.seek (-2)).1.applyKeystream 0 1).2 = .counterExhausted ∧ ((o.seek 5).1.applyKeystream 0 1).2 = .ok := by
  decide +kernel

/-- Both sides of the check, the condition not holding and holding, and a later call that needs a block. -/
theorem witness_ApplyKeystreamChecksBeforeWriting :
    (lastHost.block.keyed = true ∧ lastHost.blocksNeeded 0 = 0 ∧ lastHost.exhaustedAt = none ∧
      lastHost.blocksNeeded 64 ≤ (2 ^ 64 - 1) - lastHost.block.ctr.toNat) ∧
    (lastHost.blocksNeeded 65 ≠ 0 ∧ lastHost.blocksNeeded 65 > (2 ^ 64 - 1) - lastHost.block.ctr.toNat) ∧
    (spentHost.block.keyed = true ∧ spentHost.blocksNeeded 1 > (2 ^ 64 - 1) - spentHost.block.ctr.toNat) ∧
    (lastHost.applyKeystream 0 65).1.exhaustedAt ≠ none ∧ (lastHost.applyKeystream 0 65).1.blocksNeeded 1 ≠ 0 := by decide +kernel

theorem witness_HostStateTransitions :
    (∃ o', (host kr nr []).seek 7 = (o', .ok)) ∧
    (∃ o', ({ host kr nr [] with block := atEnd } : Orchestrator).applyKeystream 0 1 = (o', .counterExhausted)) ∧
    ∃ o', (host kr nr (memOf message)).applyKeystream 0 16 = (o', .ok) ∧ o'.cur ≠ 0 :=
  ⟨⟨_, result_eq (by decide +kernel)⟩, ⟨_, result_eq (by decide +kernel)⟩, ⟨_, result_eq (by decide +kernel), by decide +kernel⟩⟩

/-- H1's first chunks. -/
theorem witness_ChunkingDoesNotChangeTheResult :
    (∃ o1, (host kr nr (memOf message)).applyChunks 0 [1, 63, 2] = (o1, .ok)) ∧
      ∃ o2, (host kr nr (memOf message)).applyKeystream 0 [1, 63, 2].sum = (o2, .ok) :=
  ⟨⟨_, result_eq (by decide +kernel)⟩, ⟨_, result_eq (by decide +kernel)⟩⟩

theorem witness_ApplyingTwiceRestoresTheBuffer :
    Memory.WF (host kr nr (memOf message)).mem ∧ (host kr nr (memOf message)).AtByte (0 : Position).toNat ∧
    (∃ o1, (host kr nr (memOf message)).applyKeystream 0 16 = (o1, .ok)) ∧
    Memory.WF (Orchestrator.start State.reset (memOf message)).mem ∧
    ∃ o0, (Orchestrator.start State.reset (memOf message)).new (byteList kr) (byteList nr) = (o0, .ok) :=
  ⟨by decide +kernel, host_atByte_zero, ⟨_, result_eq (by decide +kernel)⟩, by decide +kernel, ⟨_, result_eq (by decide +kernel)⟩⟩

/-- At the start of a block a call needs a new one. -/
theorem witness_BlockResetInvalidatesTheInstance :
    (host kr nr []).blocksNeeded 1 ≠ 0 ∧ (byteList kr).length = 32 ∧ (byteList nr).length = 8 := by decide +kernel

/-- A failing call, seeks to the failing position and to the one below it, and both kinds of `new`. -/
theorem witness_CounterExhaustedHoldsUntilALowerSeekOrNew :
    let p : Position := 0xFFFFFFFFFFFFFFFE
    let q : Position := 0x3FF
    let o := { lastHost with exhaustedAt := some p }
    let o5 := { host kr nr [] with exhaustedAt := some 15 }
    (∃ o', lastHost.applyKeystream 0 65 = (o', .counterExhausted)) ∧ (∃ o', lastHost.applyKeystream 0 64 = (o', .ok)) ∧
    (o.exhaustedAt = some p ∧ o.block.keyed = true ∧ o.blocksNeeded 1 ≠ 0 ∧ p ≤ p ∧ p - 1 < p) ∧
    (o5.exhaustedAt = some 15 ∧ o5.block.keyed = true ∧ 15 ≤ q / 64 ∧ (q - 64) / 64 < 15) ∧
    (host kr nr []).exhaustedAt = none ∧ (byteList kr).length = 32 ∧ (byteList nr).length = 8 ∧
    (List.replicate 31 (0 : Byte)).length ≠ 32 :=
  ⟨⟨_, result_eq (by decide +kernel)⟩, ⟨_, result_eq (by decide +kernel)⟩, by decide +kernel⟩

end Sys2Proof.Tests.Slice0
end

section
/-! PROOFS. The state family: the constant words, the counter view and INFO (spec 10_state.md R21, R25, R30), who writes the key, the
nonce and KEYED (R27, R28), and that no step reads a word without a value (R35). -/

namespace Sys2Proof.Machine

/-! ## The words that always hold a value -/

namespace State

variable (s : State)

@[simp] theorem word?_zero : s.word? 0 = some 0x61707865 := rfl
@[simp] theorem word?_five : s.word? 5 = some 0x3320646e := rfl
@[simp] theorem word?_ten : s.word? 10 = some 0x79622d32 := rfl
@[simp] theorem word?_fifteen : s.word? 15 = some 0x6b206574 := rfl

variable {s} {t : State} {i : Fin 16}

theorem isConstantPosition_iff : isConstantPosition i = true ↔ i = 0 ∨ i = 5 ∨ i = 10 ∨ i = 15 := by
  simp [isConstantPosition, or_assoc]

/-- No two states differ in a constant word (R21). -/
theorem word?_eq_of_isConstantPosition (hi : isConstantPosition i = true) : t.word? i = s.word? i := by
  rcases isConstantPosition_iff.1 hi with rfl | rfl | rfl | rfl <;> rfl

/-- While KEYED = 0 only the constant words hold a value (R35). -/
theorem word?_eq_none (hk : s.keyed = false) (hi : isConstantPosition i = false) : s.word? i = none := by
  simp [word?, hk, hi]

/-- Two states with KEYED = 0 show the same words. -/
theorem word?_eq_of_unkeyed (hs : s.keyed = false) (ht : t.keyed = false) : t.word? i = s.word? i := by
  cases hi : isConstantPosition i
  · rw [word?_eq_none hs hi, word?_eq_none ht hi]
  · exact word?_eq_of_isConstantPosition hi

end State

/-- Settles O29: each constant is read from the layout of the matrix, whatever the state stores. -/
theorem constantWordsAreHardwired : Obligations.ConstantWordsAreHardwired := by
  intro s
  exact ⟨s.word?_zero, s.word?_five, s.word?_ten, s.word?_fifteen⟩

/-! ## The counter view -/

/-- Settles O30: S[9] and S[8] of a keyed state are the stored halves, and the halves of n concatenate to n. -/
theorem counterIsHighWordThenLowWord : Obligations.CounterIsHighWordThenLowWord := by
  refine ⟨fun s hk => ⟨s.ctrLo, s.ctrHi, ?_, ?_, s.toNat_ctr⟩, fun s n => ⟨s.ctr_setCtr n, rfl⟩⟩
  · exact State.word?_of_keyed hk 8
  · exact State.word?_of_keyed hk 9

/-! ## INFO -/

theorem toNat_infoWord (c : Config) : (infoWord c).toNat = c.rounds.toNat * 2 ^ 24 + 0x082040 := by
  refine (toNat_append_field (c.rounds ++ BitVec.ofNat 8 nonceLen ++ BitVec.ofNat 8 keyLen) (BitVec.ofNat 8 blockLen)).trans ?_
  simp only [toNat_append_field, BitVec.toNat_ofNat, nonceLen, keyLen, blockLen]
  omega

/-- The field of INFO at bit `start`, as a number. -/
theorem toNat_infoWord_field (c : Config) (start : Nat) :
    ((infoWord c).extractLsb' start 8).toNat = (c.rounds.toNat * 2 ^ 24 + 0x082040) / 2 ^ start % 2 ^ 8 := by
  rw [BitVec.extractLsb'_toNat, toNat_infoWord, Nat.shiftRight_eq_div_pow]

/-- The fields of INFO (R30). -/
theorem infoWord_fields (c : Config) :
    (infoWord c).extractLsb' 0 8 = 64 ∧ (infoWord c).extractLsb' 8 8 = 32 ∧ (infoWord c).extractLsb' 16 8 = 8 ∧
      (infoWord c).extractLsb' 24 8 = c.rounds := by
  have := c.rounds.isLt
  refine ⟨?_, ?_, ?_, ?_⟩ <;> apply BitVec.eq_of_toNat_eq <;> rw [toNat_infoWord_field] <;> simp <;> omega

/-- Word 0 of the bus GET_INFO answers is the word put there (R82). -/
@[simp] theorem busWord_wordToBus (w : Word) : busWord (wordToBus w) 0 = w := by
  simp [busWord, wordToBus]

/-- No step changes the construction parameters (R8). -/
theorem step_config {s t : State} (h : step s = .next t) : t.config = s.config := by
  rcases step_next h with ⟨_, rfl⟩ | ⟨_, _, rfl⟩ | ⟨_, _, _, _, _, rfl⟩ | ⟨_, _, _, _, _, _, _, _, rfl⟩ |
    ⟨_, _, _, _, u, _, _, _, hw, rfl⟩
  · rfl
  · rfl
  · rfl
  · rfl
  · exact hw.frame.1

/-- Settles O31: the fields come from INFO as a number, the reader from GET_INFO's bus, and the rest from `step_config`. -/
theorem infoHasItsFields : Obligations.InfoHasItsFields := by
  refine ⟨infoWord_fields, by decide, fun s => ⟨_, rfl, busWord_wordToBus _⟩, fun s t h => ?_⟩
  rw [step_config h]

/-! ## Who writes the key, the nonce, ctr and KEYED -/

variable {s t : State}

/-- 0x10 is the response word of OK with KEYED = 1, and of nothing else (R80). -/
theorem responseWord_eq_keyed_ok_iff {k : Bool} {c : Status} : responseWord k c = 0x10 ↔ k = true ∧ c = .ok := by
  cases k <;> cases c <;> decide

/-- Only INIT writes the key and the nonce (R26, R58). -/
theorem Writes.key_nonce {i : Instr} {u : State} (h : Writes i s u) (hi : i ≠ .init 32 8) :
    u.key = s.key ∧ u.nonce = s.nonce := by
  cases h
  case init => exact absurd rfl hi
  all_goals simp

/-- INIT sets KEYED and every other command keeps it (R28). -/
theorem Writes.keyed {i : Instr} {u : State} (h : Writes i s u) :
    (i = .init 32 8 ∧ u.keyed = true) ∨ u.keyed = s.keyed := by
  cases h
  case init => exact .inl ⟨rfl, rfl⟩
  all_goals exact .inr rfl

/-- A command other than INIT with the legal lengths keeps the key and the nonce (R27). -/
theorem step_command_key_nonce {cmd : Word} {din : Bus} {rest : List PortEvent}
    (hp : s.pending = .command cmd din :: rest) (h : step s = .next t) (hd : decode cmd ≠ .ok (.init 32 8)) :
    t.key = s.key ∧ t.nonce = s.nonce := by
  rcases step_command_next hp h with ⟨_, rfl⟩ | ⟨_, _, _, _, rfl⟩ | ⟨i, u, out, hi, hw, rfl⟩
  · exact ⟨rfl, rfl⟩
  · exact ⟨rfl, rfl⟩
  · exact hw.key_nonce fun e => hd (e ▸ hi)

/-- A GEN_BLOCK that reports OK raises ctr by exactly 1 (R123). -/
theorem ctr_of_execGenBlock_ok (h : exec .genBlock s = .next t) (hr : t.rsp = some 0x10) :
    t.ctr.toNat = s.ctr.toNat + 1 := by
  rcases exec_next h with ⟨e, he, rfl⟩ | ⟨u, out, hw, rfl⟩
  · exact absurd (responseWord_eq_keyed_ok_iff.1 (Option.some.inj hr)).2 he.ne_ok
  · cases hw with
    | genBlock _ hc => simpa using toNat_ctr_succ hc

/-- Settles O48, from the inversion of a step that serves a command. -/
theorem onlyInitChangesKeyAndNonce : Obligations.OnlyInitChangesKeyAndNonce := by
  refine ⟨fun s t cmd din rest hp h hd => ?_, fun s t => ctr_of_execGenBlock_ok, fun s => ?_, fun s n hk => ?_⟩
  · obtain ⟨hkey, hnonce⟩ := step_command_key_nonce hp h hd
    refine ⟨hkey, hnonce, fun i hi => State.word?_eq_of_isConstantPosition (State.isConstantPosition_iff.2 ?_)⟩
    simpa using hi
  · exact ⟨_, execInit_ok s, State.ctr_load s (busKey s.din) (busNonce s.din)⟩
  · exact ⟨positionToBus n, _, execSetPos_ok hk, by simp⟩

/-- A step that serves a command answers with KEYED's value after it, and KEYED has changed only if the command was INIT with the
legal lengths, which sets it (R28). -/
theorem step_command_keyed {cmd : Word} {din : Bus} {rest : List PortEvent}
    (hp : s.pending = .command cmd din :: rest) (h : step s = .next t) :
    ((decode cmd = .ok (.init 32 8) ∧ t.keyed = true) ∨ t.keyed = s.keyed) ∧
      ∃ code, t.rsp = some (responseWord t.keyed code) := by
  rcases step_command_next hp h with ⟨_, rfl⟩ | ⟨_, _, _, _, rfl⟩ | ⟨i, u, out, hi, hw, rfl⟩
  · exact ⟨.inr rfl, _, rfl⟩
  · exact ⟨.inr rfl, _, rfl⟩
  · refine ⟨?_, _, rfl⟩
    rcases hw.keyed with ⟨rfl, hu⟩ | hu
    · exact .inl ⟨hi, hu⟩
    · exact .inr hu

/-- GEN_BLOCK, GET_POS and SET_POS raise NOT_INITIALISED while KEYED = 0 (R202). -/
theorem exec_unkeyed {i : Instr} (hk : s.keyed = false) (hi : i = .genBlock ∨ i = .getPos ∨ i = .setPos) :
    exec i s = .next (s.raise .notInitialised) := by
  rcases hi with rfl | rfl | rfl
  · exact execGenBlock_unkeyed hk
  · exact execGetPos_unkeyed hk
  · exact execSetPos_unkeyed hk

/-- Settles O49, from what one command does to KEYED. -/
theorem keyedFollowsInitAndReset : Obligations.KeyedFollowsInitAndReset := by
  refine ⟨fun s i hk => ?_, State.resetFor_keyed, fun s => ⟨_, execInit_ok s, rfl⟩, fun s t cmd din rest hp h => ?_,
    fun s i hk hi => ⟨_, exec_unkeyed hk hi, answersError_raise s .notInitialised⟩⟩
  · rw [State.word?_of_keyed hk, Option.isSome_some]
  · obtain ⟨hkeyed, code, hrsp⟩ := step_command_keyed hp h
    refine ⟨fun hs => ?_, fun hs ht => ?_, _, hrsp, rspKeyed_responseWord _ _⟩
    · rcases hkeyed with ⟨_, ht⟩ | ht
      · exact ht
      · exact ht.trans hs
    · rcases hkeyed with ⟨hd, _⟩ | ht'
      · exact hd
      · simp [ht', hs] at ht

/-! ## No step reads a word that holds no value -/

namespace SameValues

theorem accept (h : SameValues s t) (din : Bus) (rest : List PortEvent) :
    SameValues (s.accept din rest) (t.accept din rest) :=
  ⟨h.config, h.keyed, h.words, h.dout, rfl, h.rsp, rfl⟩

/-- Answering alike keeps the agreement; `respond` and `raise` are answers. -/
theorem answer (h : SameValues s t) (code : Status) (out : Bus) : SameValues (s.answer code out) (t.answer code out) :=
  ⟨h.config, h.keyed, h.words, rfl, h.din, by simp [h.keyed], h.pending⟩

/-- Loading one key and one nonce gives every word of S its value, so the words before the load do not matter. -/
theorem load (h : SameValues s t) (key : Vector Word 8) (nonce : Vector Word 2) :
    SameValues (s.load key nonce) (t.load key nonce) :=
  ⟨h.config, rfl, fun _ => rfl, h.dout, h.din, h.rsp, h.pending⟩

theorem resetBlock (h : SameValues s t) (rest : List PortEvent) : SameValues (s.resetBlock rest) (t.resetBlock rest) :=
  ⟨h.config, rfl, fun _ => State.word?_eq_of_unkeyed rfl rfl, rfl, rfl, rfl, rfl⟩

end SameValues

/-- Both outcomes are next states, and these agree in every value. -/
def NextSameValues (o o' : Host.Outcome State Fault Refusal) : Prop :=
  ∃ s t, o = .next s ∧ o' = .next t ∧ SameValues s t

theorem NextSameValues.next (h : SameValues s t) : NextSameValues (.next s) (.next t) := ⟨s, t, rfl, rfl, h⟩

/-- A command that answers with a function of the parameters and DIN reads no word of S. -/
theorem exec_sameValues_of_respond {i : Instr} (out : Config → Bus → Bus)
    (hout : ∀ u : State, exec i u = .next (u.respond (out u.config u.din))) (h : SameValues s t) :
    NextSameValues (exec i s) (exec i t) := by
  rw [hout s, hout t, h.config, h.din]
  exact .next (h.answer .ok _)

/-- GEN_BLOCK, GET_POS and SET_POS fail while KEYED = 0, so they read no word of S. -/
theorem exec_sameValues_of_needsKey {i : Instr} (hi : i = .genBlock ∨ i = .getPos ∨ i = .setPos) (hk : s.keyed = false)
    (h : SameValues s t) : NextSameValues (exec i s) (exec i t) := by
  rw [exec_unkeyed hk hi, exec_unkeyed (h.keyed.trans hk) hi]
  exact .next (h.answer .notInitialised zeroBus)

/-- INIT reads no word of S: it fails by its lengths alone, or overwrites every key, nonce and counter word. -/
theorem execInit_sameValues (klen nlen : Fin 256) (h : SameValues s t) :
    NextSameValues (execInit klen nlen s) (execInit klen nlen t) := by
  unfold execInit
  split
  · exact .next (h.answer .invalidLength zeroBus)
  · rw [h.din]
    exact .next ((h.load _ _).answer .ok zeroBus)

/-- While KEYED = 0 no command reads a word that holds no value (R35). -/
theorem exec_sameValues (i : Instr) (hk : s.keyed = false) (h : SameValues s t) : NextSameValues (exec i s) (exec i t) := by
  cases i with
  | init klen nlen => exact execInit_sameValues klen nlen h
  | setPos => exact exec_sameValues_of_needsKey (by simp) hk h
  | getPos => exact exec_sameValues_of_needsKey (by simp) hk h
  | genBlock => exact exec_sameValues_of_needsKey (by simp) hk h
  | qround a b c d =>
    exact exec_sameValues_of_respond (fun _ din => wordsToBus (quarterRound (busWords din) a b c d)) (fun _ => rfl) h
  | dround => exact exec_sameValues_of_respond (fun _ din => wordsToBus (doubleRound (busWords din))) (fun _ => rfl) h
  | permute =>
    exact exec_sameValues_of_respond (fun c din => wordsToBus (permuteRounds c.doubleRounds (busWords din))) (fun _ => rfl) h
  | getInfo => exact exec_sameValues_of_respond (fun c _ => wordToBus (infoWord c)) (fun _ => rfl) h

/-- While KEYED = 0 no command word, legal or not, makes the block read a word that holds no value. -/
theorem runCommand_sameValues (cmd : Word) (hk : s.keyed = false) (h : SameValues s t) :
    NextSameValues (runCommand cmd s) (runCommand cmd t) := by
  by_cases hd : ∃ i, decode cmd = .ok i
  · obtain ⟨i, hi⟩ := hd
    rw [runCommand_ok hi, runCommand_ok hi]
    exact exec_sameValues i hk h
  · have hillegal : ∀ i, decode cmd ≠ .ok i := not_exists.1 hd
    rw [runCommand_illegal hillegal, runCommand_illegal hillegal]
    exact .next (h.answer .illegalCommand zeroBus)

/-- While KEYED = 0 no step reads a word that holds no value, whatever event is next (R35). -/
theorem step_sameValues (hk : s.keyed = false) (h : SameValues s t) : NextSameValues (step s) (step t) := by
  have hpt := h.pending
  cases hps : s.pending with
  | nil =>
    rw [step_idle hps, step_idle (hpt.trans hps)]
    exact .next h
  | cons e rest =>
    rw [step_event hps, step_event (hpt.trans hps)]
    cases e with
    | reset => exact .next (h.resetBlock rest)
    | commandCutByReset cmd din => exact .next (h.resetBlock rest)
    | command cmd din => exact runCommand_sameValues cmd hk (h.accept din rest)

/-- Settles O11: the reset values by reading them, the second half by `step_sameValues`. -/
theorem resetValuesAndNoReadOfAWordWithoutValue : Obligations.ResetValuesAndNoReadOfAWordWithoutValue := by
  refine ⟨fun c => ⟨State.word?_zero _, State.word?_five _, State.word?_ten _, State.word?_fifteen _, fun i hi => ?_, rfl,
    by simp, rfl⟩, fun s t s' hk h hs => ?_⟩
  · exact State.word?_eq_none rfl (by revert i; decide)
  · obtain ⟨u, t', hu, ht, hv⟩ := step_sameValues hk h
    obtain rfl : s' = u := Host.Outcome.next.inj (hs.symm.trans hu)
    exact ⟨t', ht, hv⟩

end Sys2Proof.Machine
end

section
/-! PROOFS. The memory family: the little-endian word views of the buses (spec 20_memory.md R51, R55), the block position on them (R54),
and the side effects of each command (R58). -/

namespace Sys2Proof.Machine

/-! ## The word views of the buses -/

/-- LE32 in shifts and ORs (R51): each byte has its own eight bits of the word. -/
theorem le32_eq_or (b0 b1 b2 b3 : Byte) : le32 b0 b1 b2 b3 =
    b0.setWidth 32 ||| b1.setWidth 32 <<< 8 ||| b2.setWidth 32 <<< 16 ||| b3.setWidth 32 <<< 24 := by
  refine BitVec.eq_of_getLsbD_eq fun i hi => ?_
  simp only [getLsbD_le32, BitVec.getLsbD_or, BitVec.getLsbD_shiftLeft, BitVec.getLsbD_setWidth]
  have hbyte : i < 8 ∨ (8 ≤ i ∧ i < 16) ∨ (16 ≤ i ∧ i < 24) ∨ 24 ≤ i := by omega
  rcases hbyte with h | ⟨_, h⟩ | ⟨_, h⟩ | h <;> grind

/-- LE32 as a number (R13). -/
theorem toNat_le32 (b0 b1 b2 b3 : Byte) : (le32 b0 b1 b2 b3).toNat =
    b0.toNat + b1.toNat * 2 ^ 8 + b2.toNat * 2 ^ 16 + b3.toNat * 2 ^ 24 := by
  refine (toNat_append_field (b3 ++ b2 ++ b1) b0).trans ?_
  simp only [toNat_append_field]
  omega

/-- Settles O32. The bytes of a bus are those of its words by `wordByte_busWord`, the bytes written by `getElem_wordsToBus`. -/
theorem busViewsAreLittleEndian : Obligations.BusViewsAreLittleEndian := by
  refine ⟨le32_eq_or, getElem_busWords, fun b k hk => ?_, getElem_wordsToBus, fun b => ?_⟩
  · exact ((congrArg (wordByte · (k % 4)) (getElem_busWords b ⟨k / 4, by omega⟩)).trans (wordByte_busWord b k hk)).symm
  · rw [busPosition_eq_words, ← getElem_busWords, ← getElem_busWords]
    rfl

/-! ## The block position on the buses -/

/-- SET_POS's operand is the sum of its bytes, byte 0 the lowest (R54). -/
theorem toNat_busPosition (b : Bus) : (busPosition b).toNat =
    b[0].toNat + b[1].toNat * 2 ^ 8 + b[2].toNat * 2 ^ 16 + b[3].toNat * 2 ^ 24 +
      b[4].toNat * 2 ^ 32 + b[5].toNat * 2 ^ 40 + b[6].toNat * 2 ^ 48 + b[7].toNat * 2 ^ 56 := by
  simp only [busPosition, le64, toNat_concatWords, toNat_le32]
  omega

/-- Byte j < 8 of the bus GET_POS answers is byte j of the position (R54). -/
theorem getElem_positionToBus_of_lt (n : Position) (j : Nat) (hj : j < 8) : (positionToBus n)[j] = positionByte n j := by
  rw [getElem_positionToBus, if_pos hj]

/-- Settles O33, from what SET_POS and GET_POS do while KEYED = 1. -/
theorem positionOnTheBuses : Obligations.PositionOnTheBuses := by
  refine ⟨fun s hk => ⟨_, execSetPos_ok hk, ?_, ?_⟩, fun s hk => ⟨_, execGetPos_ok hk, getElem_positionToBus_of_lt s.ctr⟩⟩
  · rw [State.ctr_respond, State.ctr_setCtr, toNat_busPosition]
  · rw [State.ctr_respond, State.ctr_setCtr, busPosition_eq_words, toNat_concatWords]

/-! ## The side effects of each command -/

variable {s t : State} {i : Instr}

/-- A command changes neither the parameters nor the port's DIN sample and pending events, whether it fails or completes. -/
theorem exec_frame (h : exec i s = .next t) : t.config = s.config ∧ t.din = s.din ∧ t.pending = s.pending := by
  rcases exec_next h with ⟨_, _, rfl⟩ | ⟨_, _, hw, rfl⟩
  · exact ⟨rfl, rfl, rfl⟩
  · exact hw.frame

/-- Only INIT changes the key, the nonce and KEYED (R58). -/
theorem exec_key_nonce_keyed (h : exec i s = .next t) (hi : i ≠ .init 32 8) :
    t.key = s.key ∧ t.nonce = s.nonce ∧ t.keyed = s.keyed := by
  rcases exec_next h with ⟨_, _, rfl⟩ | ⟨u, out, hw, rfl⟩
  · exact ⟨rfl, rfl, rfl⟩
  · obtain ⟨hkey, hnonce⟩ := hw.key_nonce hi
    exact ⟨hkey, hnonce, hw.keyed.resolve_left fun e => hi e.1⟩

/-- A command reads neither the DOUT nor the RSP that an earlier one left, and writes both anew. -/
theorem exec_answer (i : Instr) (s : State) (code : Status) (out : Bus) : exec i (s.answer code out) = exec i s := by
  cases i <;> rfl

/-- A command other than INIT, SET_POS and GEN_BLOCK writes no word of S and not KEYED (R58). -/
theorem Writes.eq_self {u : State} (h : Writes i s u) (hinit : i ≠ .init 32 8) (hset : i ≠ .setPos) (hgen : i ≠ .genBlock) :
    u = s := by
  cases h
  case init => exact absurd rfl hinit
  case setPos => exact absurd rfl hset
  case genBlock => exact absurd rfl hgen
  all_goals rfl

/-- The whole effect of a command other than INIT, SET_POS and GEN_BLOCK is its answer (R58). -/
theorem exec_eq_answer (h : exec i s = .next t) (hinit : i ≠ .init 32 8) (hset : i ≠ .setPos) (hgen : i ≠ .genBlock) :
    ∃ code out, t = s.answer code out := by
  rcases exec_next h with ⟨e, _, rfl⟩ | ⟨u, out, hw, rfl⟩
  · exact ⟨e, zeroBus, rfl⟩
  · rw [hw.eq_self hinit hset hgen]
    exact ⟨.ok, out, rfl⟩

/-- A response with a code other than 0 is an error's answer: the command wrote DOUT (zero) and its response only (R58, R205). -/
theorem exec_answersError {w : Word} (h : exec i s = .next t) (hr : t.rsp = some w) (hw : rspCode w ≠ 0) :
    AnswersError s t (rspCode w) := by
  rcases exec_next h with ⟨e, _, rfl⟩ | ⟨u, out, _, rfl⟩
  · obtain rfl := Option.some.inj hr
    rw [rspCode_responseWord]
    exact answersError_raise s e
  · obtain rfl := Option.some.inj hr
    exact absurd (rspCode_responseWord _ .ok) hw

/-- Settles O50. A command without side effects only answers, and an answer changes nothing a command reads (`exec_answer`). -/
theorem sideEffectsOfEachCommand : Obligations.SideEffectsOfEachCommand := by
  intro i s t h
  refine ⟨exec_frame h, fun hinit => exec_key_nonce_keyed h (hinit 32 8), fun hinit hset hgen => ?_, fun hi hr hctr => ?_,
    fun w hr hw => exec_answersError h hr hw⟩
  · obtain ⟨code, out, rfl⟩ := exec_eq_answer h (hinit 32 8) hset hgen
    exact ⟨rfl, rfl, (exec_answer i s code out).trans h⟩
  · subst hi
    have hsucc := ctr_of_execGenBlock_ok h hr
    rw [hctr] at hsucc
    omega

end Sys2Proof.Machine
end

section
/-! PROOFS. The encoding family: the decoder and the encoder are inverse to one another (spec 30_encoding.md R72, R74, R78), the legal
words and their number (R77), the reserved ones (R75, R76), the response word (R80, R81), and the DIN bytes a command reads (R83,
R84). -/

namespace Sys2Proof

/-! ## The decoder and the encoder -/

variable {w : Word} {k : BitVec 4} {i : Instr}

/-- A format N word is its opcode, with nothing in the reserved field (R72). -/
theorem encodeN_eq_iff : encodeN k = w ↔ Cmd.opc w = k ∧ Cmd.rsvdN w = 0 := by
  simp only [← BitVec.toNat_inj, toNat_encodeN, Cmd.toNat_opc, Cmd.toNat_rsvdN, BitVec.ofNat_eq_ofNat,
    BitVec.toNat_ofNat]
  omega

/-- A format L word is its opcode and its two lengths, with nothing in the reserved field (R72). -/
theorem encodeL_eq_iff {klen nlen : Fin 256} :
    encodeL k klen nlen = w ↔ Cmd.opc w = k ∧ Cmd.rsvdLQ w = 0 ∧ Cmd.klen w = klen ∧ Cmd.nlen w = nlen := by
  simp only [← BitVec.toNat_inj, Fin.ext_iff, toNat_encodeL, Cmd.toNat_opc, Cmd.toNat_rsvdLQ, Cmd.val_klen, Cmd.val_nlen,
    BitVec.ofNat_eq_ofNat, BitVec.toNat_ofNat]
  omega

/-- A format Q word is its opcode and its four positions, with nothing in the reserved field (R72). -/
theorem encodeQ_eq_iff {a b c d : Fin 16} :
    encodeQ k a b c d = w ↔
      Cmd.opc w = k ∧ Cmd.rsvdLQ w = 0 ∧ Cmd.ia w = a ∧ Cmd.ib w = b ∧ Cmd.ic w = c ∧ Cmd.id w = d := by
  simp only [← BitVec.toNat_inj, Fin.ext_iff, toNat_encodeQ, Cmd.toNat_opc, Cmd.toNat_rsvdLQ, Cmd.val_ia, Cmd.val_ib,
    Cmd.val_ic, Cmd.val_id, BitVec.ofNat_eq_ofNat,
    BitVec.toNat_ofNat]
  omega

/-- A word decodes to a command exactly when it is that command's encoding: the formats of R72 leave no bit of a legal word
unread. -/
theorem decode_eq_ok_iff_encode_eq : decode w = .ok i ↔ encode i = w := by
  have hopc : ∀ k : BitVec 4, Cmd.opc w = k ↔ (Cmd.opc w).toNat = k.toNat := fun _ => BitVec.toNat_inj.symm
  cases i <;> simp [decode_eq_ok, encode, encodeN_eq_iff, encodeL_eq_iff, encodeQ_eq_iff, hopc]

theorem decode_encode (i : Instr) : decode (encode i) = .ok i := decode_eq_ok_iff_encode_eq.2 rfl

theorem encode_injective : Function.Injective encode := fun i _ h =>
  Except.ok.inj ((decode_encode i).symm.trans (decode_eq_ok_iff_encode_eq.2 h.symm))

/-! ## The words that are no command -/

/-- OPC 0x0 and 0x9 to 0xF are reserved (R75). -/
theorem not_legal_of_reservedOpcode (h : Cmd.opc w = 0 ∨ 9 ≤ (Cmd.opc w).toNat) : ¬ LegalCommand w := by
  rintro ⟨h1, h8, -, -⟩
  rcases h with h | h
  · simp [h] at h1
  · omega

/-- Bits 31:20 are reserved in formats L and Q (R76). -/
theorem not_legal_of_rsvdLQ (ho : Cmd.opc w = 0x1 ∨ Cmd.opc w = 0x5) (hr : Cmd.rsvdLQ w ≠ 0) : ¬ LegalCommand w :=
  fun ⟨_, _, hLQ, _⟩ => hr (hLQ ho)

/-- Bits 31:4 are reserved in format N (R76). -/
theorem not_legal_of_rsvdN (h1 : Cmd.opc w ≠ 0x1) (h5 : Cmd.opc w ≠ 0x5) (hr : Cmd.rsvdN w ≠ 0) : ¬ LegalCommand w :=
  fun ⟨_, _, _, hN⟩ => hr (hN h1 h5)

theorem decode_ne_ok_of_not_legal (h : ¬ LegalCommand w) (i : Instr) : decode w ≠ .ok i := fun hi =>
  h ((decode_ok_iff_legal w).1 ⟨i, hi⟩)

theorem exists_decode_eq_error (h : ¬ LegalCommand w) : ∃ e, decode w = .error e := by
  cases hd : decode w with
  | ok i => exact absurd hd (decode_ne_ok_of_not_legal h i)
  | error e => exact ⟨e, rfl⟩

/-! ## The decoder's field table -/

/-- The rows of the opcode map in format N (R74). -/
def formatNRows : List (BitVec 4 × Instr) :=
  [(0x2#4, .setPos), (0x3#4, .getPos), (0x4#4, .genBlock), (0x6#4, .dround), (0x7#4, .permute), (0x8#4, .getInfo)]

theorem formatNRows_spec : ∀ p ∈ formatNRows, encode p.2 = encodeN p.1 ∧ p.1 ≠ 0x1 ∧ p.1 ≠ 0x5 := by decide

/-- Settles O4: a word is read as the command it encodes, and it is refused where it is not legal. -/
theorem decoderFollowsItsFieldTable : Obligations.DecoderFollowsItsFieldTable := by
  intro w
  refine ⟨fun ho hr => ?_, fun ho hr => ?_, fun ho hr => ?_, fun ho hr => ?_, fun p hp ho => ?_, fun h => ?_⟩
  · exact exists_decode_eq_error (not_legal_of_rsvdLQ (.inl ho) hr)
  · exact ⟨Cmd.klen w, Cmd.nlen w, decode_eq_ok_iff_encode_eq.2 (encodeL_eq_iff.2 ⟨ho, hr, rfl, rfl⟩), rfl, rfl⟩
  · exact exists_decode_eq_error (not_legal_of_rsvdLQ (.inr ho) hr)
  · exact ⟨Cmd.ia w, Cmd.ib w, Cmd.ic w, Cmd.id w,
      decode_eq_ok_iff_encode_eq.2 (encodeQ_eq_iff.2 ⟨ho, hr, rfl, rfl, rfl, rfl⟩), rfl, rfl, rfl, rfl⟩
  · obtain ⟨hencode, h1, h5⟩ := formatNRows_spec p hp
    have hopc : Cmd.opc w = p.1 := ho
    refine ⟨fun hr => ?_, fun hr => ?_⟩
    · exact exists_decode_eq_error (not_legal_of_rsvdN (hopc ▸ h1) (hopc ▸ h5) hr)
    · exact decode_eq_ok_iff_encode_eq.2 (hencode.trans (encodeN_eq_iff.2 ⟨hopc, hr⟩))
  · exact exists_decode_eq_error (not_legal_of_reservedOpcode h)

/-! ## The number of legal words -/

/-- The INIT command of a pair of lengths. -/
def initOf : Fin 256 × Fin 256 → Instr
  | (klen, nlen) => .init klen nlen

/-- The QROUND command of four positions. -/
def qroundOf : Fin 16 × Fin 16 × Fin 16 × Fin 16 → Instr
  | (a, b, c, d) => .qround a b c d

/-- The command of a format N row. -/
def noOperandOf (n : Fin 6) : Instr := (formatNRows.get n).2

/-- Every command, by its format's operands. -/
def commandOf : (Fin 256 × Fin 256) ⊕ (Fin 16 × Fin 16 × Fin 16 × Fin 16) ⊕ Fin 6 → Instr :=
  Sum.elim initOf (Sum.elim qroundOf noOperandOf)

theorem initOf_injective : Function.Injective initOf := by
  rintro ⟨_, _⟩ ⟨_, _⟩ h
  simpa [initOf] using h

theorem qroundOf_injective : Function.Injective qroundOf := by
  rintro ⟨_, _, _, _⟩ ⟨_, _, _, _⟩ h
  simpa [qroundOf] using h

theorem noOperandOf_injective : Function.Injective noOperandOf := by unfold Function.Injective; decide

/-- No format N command takes lengths or positions. -/
theorem noOperandOf_ne (n : Fin 6) : (∀ p, initOf p ≠ noOperandOf n) ∧ ∀ p, qroundOf p ≠ noOperandOf n := by
  fin_cases n <;> exact ⟨fun _ => Instr.noConfusion, fun _ => Instr.noConfusion⟩

theorem commandOf_injective : Function.Injective commandOf := by
  refine initOf_injective.sumElim (qroundOf_injective.sumElim noOperandOf_injective ?_) ?_
  · exact fun p n => (noOperandOf_ne n).2 p
  · rintro p (q | n)
    · exact Instr.noConfusion
    · exact (noOperandOf_ne n).1 p

theorem commandOf_surjective : Function.Surjective commandOf := by
  intro i
  cases i with
  | init klen nlen => exact ⟨.inl (klen, nlen), rfl⟩
  | qround a b c d => exact ⟨.inr (.inl (a, b, c, d)), rfl⟩
  | setPos => exact ⟨.inr (.inr 0), rfl⟩
  | getPos => exact ⟨.inr (.inr 1), rfl⟩
  | genBlock => exact ⟨.inr (.inr 2), rfl⟩
  | dround => exact ⟨.inr (.inr 3), rfl⟩
  | permute => exact ⟨.inr (.inr 4), rfl⟩
  | getInfo => exact ⟨.inr (.inr 5), rfl⟩

/-- A family of distinct commands has one word for each of its operand values. -/
theorem exists_words_of_injective {α : Type} [Fintype α] {f : α → Instr} (hf : Function.Injective f) :
    ∃ words : List Word, words.Nodup ∧ words.length = Fintype.card α ∧ ∀ w, w ∈ words ↔ ∃ a, decode w = .ok (f a) := by
  refine ⟨Finset.univ.toList.map (encode ∘ f), ?_, ?_, fun w => ?_⟩
  · exact Finset.univ.nodup_toList.map (encode_injective.comp hf)
  · rw [List.length_map, Finset.length_toList, Finset.card_univ]
  · simp [decode_eq_ok_iff_encode_eq]

/-- Settles O3: the words of a command family are as many as its operand values, since encoding is injective. -/
theorem legalCommandWordsAndTheirNumber : Obligations.LegalCommandWordsAndTheirNumber := by
  refine ⟨decode_ok_iff_legal, ?_, ?_, fun i _ => ?_, ?_⟩
  · simpa [initOf] using exists_words_of_injective initOf_injective
  · simpa [qroundOf] using exists_words_of_injective qroundOf_injective
  · exact ⟨encode i, decode_encode i, fun w' h => (decode_eq_ok_iff_encode_eq.1 h).symm⟩
  · obtain ⟨words, hnodup, hlength, hmem⟩ := exists_words_of_injective commandOf_injective
    refine ⟨words, hnodup, by simp [hlength], fun w => ?_⟩
    rw [hmem w, commandOf_surjective.exists]

namespace Machine

/-- Settles O5: each word is its command's encoding, so it decodes to it, and 16 is no legal key length. -/
theorem canonicalCommandWords : Obligations.CanonicalCommandWords := by
  refine ⟨fun p hp => ?_, fun s => ⟨_, execInit_badLength (.inl (by decide)), answersError_raise s .invalidLength⟩⟩
  have hencode : encode p.2 = p.1 := by revert p; decide
  exact ⟨decode_eq_ok_iff_encode_eq.2 hencode, hencode⟩

/-! ## The answers -/

/-- A word that is not legal is answered ILLEGAL_COMMAND in every state (R204). -/
theorem answeredIllegal_of_not_legal {w : Word} (h : ¬ LegalCommand w) : AnsweredIllegal w := fun s din rest hp =>
  ⟨_, step_illegal hp (decode_ne_ok_of_not_legal h), answersError_raise (s.accept din rest) .illegalCommand⟩

/-- Settles O6: none of these words is legal. -/
theorem reservedWordsAreAnsweredIllegal : Obligations.ReservedWordsAreAnsweredIllegal := by
  intro w hw
  refine answeredIllegal_of_not_legal ?_
  rcases hw with h0 | h9 | ⟨ho, hr⟩ | ⟨h1, h5, hr⟩
  · exact not_legal_of_reservedOpcode (.inl h0)
  · exact not_legal_of_reservedOpcode (.inr h9)
  · exact not_legal_of_rsvdLQ ho hr
  · exact not_legal_of_rsvdN h1 h5 hr

variable {s t : State} {cmd : Word} {din : Bus} {rest : List PortEvent}

/-- No step stops (R233). -/
theorem stepsOn (s : State) : StepsOn s := by
  rcases step_cases s with ⟨_, h⟩ | ⟨_, _, h⟩ | ⟨_, _, _, _, _, h⟩ | ⟨_, _, _, _, _, _, _, _, h⟩ |
    ⟨_, _, _, _, _, _, _, _, _, h⟩ <;> exact ⟨_, h⟩

/-- Serving a command takes that one event. -/
theorem step_command_pending (hp : s.pending = .command cmd din :: rest) (h : step s = .next t) : t.pending = rest := by
  rcases step_command_next hp h with ⟨_, rfl⟩ | ⟨_, _, _, _, rfl⟩ | ⟨_, _, _, _, hw, rfl⟩
  · rfl
  · rfl
  · obtain ⟨-, -, hpending⟩ := hw.frame
    exact hpending

/-- A step that serves no command waits or resets. -/
theorem step_no_command_next (hp : ∀ cmd din rest, s.pending ≠ .command cmd din :: rest) (h : step s = .next t) :
    t = s ∨ ∃ rest, t = s.resetBlock rest := by
  rcases step_next h with ⟨_, ht⟩ | ⟨rest, _, ht⟩ | ⟨_, _, _, hc, _⟩ | ⟨_, _, _, _, _, hc, _⟩ | ⟨_, _, _, _, _, _, hc, _⟩
  · exact .inl ht
  · exact .inr ⟨rest, ht⟩
  all_goals exact absurd hc (hp _ _ _)

/-- Settles O13: a command's step takes one event and answers, and an idle or reset step sends no response. -/
theorem everyCommandIsAnsweredByItsStep : Obligations.EveryCommandIsAnsweredByItsStep := by
  refine ⟨fun s cmd din rest hp => ?_, fun s t hp h => ?_⟩
  · obtain ⟨t, h⟩ := stepsOn s
    obtain ⟨-, code, hrsp⟩ := step_command_keyed hp h
    exact ⟨t, _, h, step_command_pending hp h, hrsp⟩
  · rcases step_no_command_next hp h with rfl | ⟨rest, rfl⟩
    · exact .inl rfl
    · exact .inr rfl

/-- Settles O15: the response of a served command is the response word of KEYED after it (`step_command_keyed`). -/
theorem responseWordHasItsFormat : Obligations.ResponseWordHasItsFormat := by
  refine ⟨⟨rfl, rfl, rfl, rfl, rfl⟩, fun s t cmd din rest hp h => ?_⟩
  obtain ⟨-, code, hrsp⟩ := step_command_keyed hp h
  have hcode : rspCode (responseWord t.keyed code) = statusCode code := rspCode_responseWord _ _
  refine ⟨_, code, hrsp, responseWord_high _ _, rspKeyed_responseWord _ _, hcode, ?_⟩
  exact (congrArg BitVec.toNat hcode).trans_le (statusCode_le code)

/-! ## The DIN bytes a command reads -/

namespace SameButDin

theorem config (h : SameButDin s t) : t.config = s.config := by rw [h]
theorem keyed (h : SameButDin s t) : t.keyed = s.keyed := by rw [h]
theorem ctr (h : SameButDin s t) : t.ctr = s.ctr := by rw [h]; rfl
theorem matrix (h : SameButDin s t) : t.matrix = s.matrix := by rw [h]; rfl

/-- Answering alike keeps the agreement; `respond` and `raise` are answers. -/
theorem answer (h : SameButDin s t) (code : Status) (out : Bus) : SameButDin (s.answer code out) (t.answer code out) := by
  rw [h]; rfl

theorem load (h : SameButDin s t) (key : Vector Word 8) (nonce : Vector Word 2) :
    SameButDin (s.load key nonce) (t.load key nonce) := by
  rw [h]; rfl

theorem setCtr (h : SameButDin s t) (n : Position) : SameButDin (s.setCtr n) (t.setCtr n) := by
  rw [h]; rfl

/-- With all 64 bytes alike nothing is left to differ. -/
theorem eq_of_din (h : SameButDin s t) (hd : ∀ k (_ : k < 64), t.din[k] = s.din[k]) : t = s := by
  rw [h, Vector.ext hd]

end SameButDin

/-- Both outcomes are next states, and these agree in everything but DIN. -/
def NextSameButDin (o o' : Host.Outcome State Fault Refusal) : Prop :=
  ∃ s t, o = .next s ∧ o' = .next t ∧ SameButDin s t

theorem NextSameButDin.next (h : SameButDin s t) : NextSameButDin (.next s) (.next t) := ⟨s, t, rfl, rfl, h⟩

/-- INIT reads DIN[0..39] when its lengths are legal, and no byte when they are not (R84, R146). -/
theorem execInit_sameButDin {klen nlen : Fin 256} (h : SameButDin s t)
    (hd : ∀ k (_ : k < 64), k < dinBytesRead (.init klen nlen) → t.din[k] = s.din[k]) :
    NextSameButDin (execInit klen nlen s) (execInit klen nlen t) := by
  unfold execInit
  split
  · exact .next (h.answer .invalidLength zeroBus)
  · next hlen =>
    have hread : dinBytesRead (.init klen nlen) = 40 := if_pos (by simpa using hlen)
    have hd40 : ∀ k (hk : k < 40), t.din[k] = s.din[k] := fun k hk => hd k (by omega) (hread ▸ hk)
    rw [busKey_congr hd40, busNonce_congr hd40]
    exact .next ((h.load _ _).answer .ok zeroBus)

/-- SET_POS reads DIN[0..7] (R84). -/
theorem execSetPos_sameButDin (h : SameButDin s t) (hd : ∀ k (_ : k < 8), t.din[k] = s.din[k]) :
    NextSameButDin (execSetPos s) (execSetPos t) := by
  unfold execSetPos
  rw [h.keyed, busPosition_congr hd]
  split
  · exact .next (h.answer .notInitialised zeroBus)
  · exact .next ((h.setCtr _).answer .ok zeroBus)

/-- GET_POS reads no DIN byte (R84). -/
theorem execGetPos_sameButDin (h : SameButDin s t) : NextSameButDin (execGetPos s) (execGetPos t) := by
  unfold execGetPos
  rw [h.keyed, h.ctr]
  split
  · exact .next (h.answer .notInitialised zeroBus)
  · exact .next (h.answer .ok _)

/-- GEN_BLOCK reads no DIN byte (R84). -/
theorem execGenBlock_sameButDin (h : SameButDin s t) : NextSameButDin (execGenBlock s) (execGenBlock t) := by
  unfold execGenBlock
  rw [h.keyed, h.ctr, h.config, h.matrix]
  split
  · exact .next (h.answer .notInitialised zeroBus)
  · split
    · exact .next (h.answer .counterExhausted zeroBus)
    · exact .next ((h.setCtr _).answer .ok _)

/-- GET_INFO reads no DIN byte (R84). -/
theorem execGetInfo_sameButDin (h : SameButDin s t) : NextSameButDin (execGetInfo s) (execGetInfo t) := by
  unfold execGetInfo
  rw [h.config]
  exact .next (h.answer .ok _)

/-- A command ignores the DIN bytes outside its row of R84 (R83). -/
theorem exec_sameButDin (i : Instr) (h : SameButDin s t)
    (hd : ∀ k (_ : k < 64), k < dinBytesRead i → t.din[k] = s.din[k]) : NextSameButDin (exec i s) (exec i t) := by
  cases i with
  | init klen nlen => exact execInit_sameButDin h hd
  | setPos => exact execSetPos_sameButDin h fun k hk => hd k (by omega) hk
  | getPos => exact execGetPos_sameButDin h
  | genBlock => exact execGenBlock_sameButDin h
  | getInfo => exact execGetInfo_sameButDin h
  | qround | dround | permute =>
    rw [h.eq_of_din fun k hk => hd k hk hk]
    exact .next rfl

/-- Settles O51, from what each command reads of DIN. -/
theorem unreadDinBytesAreIgnored : Obligations.UnreadDinBytesAreIgnored := by
  intro i s t s' h hd hs
  obtain ⟨u, t', hu, ht, hut⟩ := exec_sameButDin i h hd
  obtain rfl : s' = u := Host.Outcome.next.inj (hs.symm.trans hu)
  exact ⟨t', ht, hut⟩

end Machine

end Sys2Proof
end

section
/-! PROOFS. The round family: the quarter-round's steps (spec 40_round_function.md R100), the rounds as stages on a partition of the
positions, and from that their order (R105) and their inverses (R108), the zero vector (R107), and the commands QROUND, DROUND and
PERMUTE (R109 to R114). -/

namespace Sys2Proof.Machine

/-! ## The quarter-round -/

/-- Settles O34: the intermediate vectors are those of the four steps, each read by `getElem_mix`. -/
theorem quarterRoundIsFourStepsInOrder : Obligations.QuarterRoundIsFourStepsInOrder := by
  intro v a b c d
  refine ⟨_, _, _, getElem_mix v b a d 7, getElem_mix _ c b a 9, getElem_mix _ d c b 13, getElem_mix _ a d c 18,
    fun i ha hb hc hd => ?_⟩
  exact getElem_quarterRound_of_notMem (p := (a, b, c, d)) (by simp [Quad.toList, ha, hb, hc, hd])

theorem rotl_zero (n : Nat) : rotl 0 n = 0#32 := BitVec.eq_of_getLsbD_eq fun k _ => by simp [rotl]

/-- A step whose two addends are zero changes nothing, whatever its target holds. -/
theorem mix_eq_self {v : WordVec} {x y : Fin 16} (hx : v[x] = 0) (hy : v[y] = 0) (t : Fin 16) (n : Nat) : mix v t x y n = v := by
  have hrotl : rotl (v[x] + v[y]) n = 0#32 := by rw [hx, hy]; exact rotl_zero n
  refine wordVec_ext fun i => ?_
  rw [getElem_mix, hrotl, BitVec.xor_zero]
  split
  · next h => rw [h]
  · rfl

/-! ## The rounds as stages on a partition of the positions -/

/-- The tuples of the column round (R102). -/
def columnTuples : List Quad := [(0, 4, 8, 12), (5, 9, 13, 1), (10, 14, 2, 6), (15, 3, 7, 11)]

/-- The tuples of the row round (R103). -/
def rowTuples : List Quad := [(0, 1, 2, 3), (5, 6, 7, 4), (10, 11, 8, 9), (15, 12, 13, 14)]

/-- The stages of a list of tuples, in its order. -/
def stages (l : List Quad) (v : WordVec) : WordVec := l.foldl quarterRoundAt v

theorem stages_cons (p : Quad) (l : List Quad) (v : WordVec) : stages (p :: l) v = stages l (quarterRoundAt v p) := rfl

theorem columnRound_eq_stages (v : WordVec) : columnRound v = stages columnTuples v := rfl

theorem rowRound_eq_stages (v : WordVec) : rowRound v = stages rowTuples v := rfl

/-- Every position stands in exactly one place of the tuples (R105). -/
def Partitions (l : List Quad) : Prop := (l.flatMap Quad.toList).Perm (List.finRange 16)

theorem columnTuples_partitions : Partitions columnTuples := by unfold Partitions; decide

theorem rowTuples_partitions : Partitions rowTuples := by unfold Partitions; decide

/-- A position outside every tuple passes through the stages. -/
theorem getElem_stages_of_notMem {l : List Quad} {i : Fin 16} (h : ∀ p ∈ l, i ∉ p.toList) (v : WordVec) :
    (stages l v)[i] = v[i] := by
  induction l generalizing v with
  | nil => rfl
  | cons p l ih =>
    rw [stages_cons, ih fun q hq => h q (List.mem_cons_of_mem p hq),
      getElem_quarterRound_of_notMem (h p List.mem_cons_self)]

/-- Stages of distinct positions are undone one by one, the last one first (R108). -/
theorem stages_bijective {l : List Quad} (h : ∀ p ∈ l, p.toList.Nodup) : Function.Bijective (stages l) := by
  induction l with
  | nil => exact Function.bijective_id
  | cons p l ih =>
    exact (ih fun q hq => h q (List.mem_cons_of_mem p hq)).comp (quarterRound_bijective (h p List.mem_cons_self))

namespace Partitions

variable {l m : List Quad}

theorem perm (h : Partitions l) (hm : m.Perm l) : Partitions m := (hm.flatMap_right Quad.toList).trans h

theorem nodup (h : Partitions l) : (l.flatMap Quad.toList).Nodup := h.nodup_iff.2 (List.nodup_finRange 16)

/-- The four positions of a tuple are distinct. -/
theorem nodup_toList (h : Partitions l) : ∀ p ∈ l, p.toList.Nodup := (List.nodup_flatMap.1 h.nodup).1

/-- No two tuples share a position. -/
theorem pairwise_disjoint (h : Partitions l) : l.Pairwise fun p q => p.toList.Disjoint q.toList :=
  (List.nodup_flatMap.1 h.nodup).2

theorem bijective (h : Partitions l) : Function.Bijective (stages l) := stages_bijective h.nodup_toList

/-- The stages of any two of the tuples commute. -/
theorem commute (h : Partitions l) {p q : Quad} (hp : p ∈ l) (hq : q ∈ l) (v : WordVec) :
    quarterRoundAt (quarterRoundAt v p) q = quarterRoundAt (quarterRoundAt v q) p := by
  have hsymm : Std.Symm fun p q : Quad => p.toList.Disjoint q.toList := ⟨fun _ _ hpq => hpq.symm⟩
  by_cases hpq : p = q
  · rw [hpq]
  · exact quarterRound_comm (h.pairwise_disjoint.forall hq hp (Ne.symm hpq)) v

/-- The stages may run in any order (R105). -/
theorem stages_perm (h : Partitions l) (hm : m.Perm l) (v : WordVec) : stages m v = stages l v :=
  hm.foldl_eq' (fun _ hp _ hq v => (h.perm hm).commute hp hq v) v

/-- The stages may run in parallel: a tuple's words are those of its own stage on the input (R105). -/
theorem getElem_stages (h : Partitions l) (v : WordVec) {p : Quad} (hp : p ∈ l) {i : Fin 16} (hi : i ∈ p.toList) :
    (stages l v)[i] = (quarterRoundAt v p)[i] := by
  have hperm : (p :: l.erase p).Perm l := (List.perm_cons_erase hp).symm
  have hrest : ∀ q ∈ l.erase p, i ∉ q.toList := fun q hq hiq =>
    List.rel_of_pairwise_cons (h.perm hperm).pairwise_disjoint hq hi hiq
  rw [← h.stages_perm hperm, stages_cons, getElem_stages_of_notMem hrest]

end Partitions

/-- Settles O36: the tuples of each round are a partition of the positions, so their stages run in any order or in parallel. -/
theorem quarterRoundsOfARoundCommute : Obligations.QuarterRoundsOfARoundCommute :=
  ⟨columnTuples_partitions, rowTuples_partitions, fun _ v hl => columnTuples_partitions.stages_perm hl v,
    fun _ v hl => rowTuples_partitions.stages_perm hl v, fun v _ hp _ hi => columnTuples_partitions.getElem_stages v hp hi,
    fun v _ hp _ hi => rowTuples_partitions.getElem_stages v hp hi⟩

/-! ## The double rounds -/

/-- PERM_R is the R-fold iterate of the double round (R106). -/
theorem permuteRounds_eq_iterate (n : Nat) : permuteRounds n = doubleRound^[n] := by
  induction n with
  | zero => rfl
  | succ n ih =>
    funext v
    rw [permuteRounds, ih, Function.iterate_succ_apply']

/-- Settles O35: the orders are those of the definitions, and the two orders are evaluated on e0. -/
theorem roundsAndTheirOrder : Obligations.RoundsAndTheirOrder :=
  ⟨columnRound_eq_stages, rowRound_eq_stages, fun _ => rfl, by decide +kernel, fun n v => congrFun (permuteRounds_eq_iterate n) v⟩

/-- Settles O37: with a group of zeros every step adds zeros, and a fixed point of the double round is one of its iterates. -/
theorem zeroVectorIsFixed : Obligations.ZeroVectorIsFixed := by
  refine ⟨fun v a b c d ha hb hc hd => ?_, doubleRound_zero, fun n => ?_⟩
  · simp only [quarterRound]
    rw [mix_eq_self ha hd, mix_eq_self hb ha, mix_eq_self hc hb, mix_eq_self hd hc]
  · rw [permuteRounds_eq_iterate]
    exact Function.iterate_fixed doubleRound_zero n

theorem columnRound_bijective : Function.Bijective columnRound := columnTuples_partitions.bijective

theorem rowRound_bijective : Function.Bijective rowRound := rowTuples_partitions.bijective

theorem doubleRound_bijective : Function.Bijective doubleRound := rowRound_bijective.comp columnRound_bijective

/-- Settles O38: each stage of a round has distinct positions, and bijections compose. -/
theorem roundFunctionIsInvertible : Obligations.RoundFunctionIsInvertible := by
  refine ⟨fun v a b c d hab hac had hbc hbd hcd => ?_, columnRound_bijective, rowRound_bijective, doubleRound_bijective,
    fun n => ?_⟩
  · have hnodup : [a, b, c, d].Nodup := by simp [hab, hac, had, hbc, hbd, hcd]
    exact ⟨quarterRoundInv_quarterRound hnodup v, quarterRound_quarterRoundInv hnodup v⟩
  · rw [permuteRounds_eq_iterate]
    exact doubleRound_bijective.iterate n

/-! ## The commands QROUND, DROUND and PERMUTE -/

/-- The response word of OK, by KEYED (R80). -/
theorem responseWord_ok (k : Bool) : responseWord k .ok = if k then 0x10 else 0x00 := by
  cases k
  · exact responseWord_unkeyed_ok
  · exact responseWord_keyed_ok

/-- Responding OK writes DOUT and RSP and nothing else (R81). -/
theorem State.respond_eq (s : State) (out : Bus) :
    s.respond out = { s with dout := out, rsp := some (if s.keyed then 0x10 else 0x00) } := by
  rw [← responseWord_ok]
  rfl

/-- A format N word with a reserved bit set is answered ILLEGAL_COMMAND (R76, R204). -/
theorem answeredIllegal_of_rsvdN {w : Word} {k : BitVec 4} (ho : w.extractLsb' 0 4 = k) (h1 : k ≠ 0x1) (h5 : k ≠ 0x5)
    (hr : w.extractLsb' 4 28 ≠ 0) : AnsweredIllegal w := by
  subst ho
  exact answeredIllegal_of_not_legal (not_legal_of_rsvdN h1 h5 hr)

/-- Settles O24: QROUND responds with one quarter-round, and its words are those of the decoder's field table. -/
theorem qroundAppliesOneQuarterRound : Obligations.QroundAppliesOneQuarterRound := by
  refine ⟨fun s a b c d => ?_, fun w ho hr => ?_, fun w ho hr => ?_⟩
  · exact congrArg Host.Outcome.next (State.respond_eq s _)
  · obtain ⟨-, -, -, hqround, -⟩ := decoderFollowsItsFieldTable w
    exact hqround ho hr
  · exact answeredIllegal_of_not_legal (not_legal_of_rsvdLQ (.inr ho) hr)

/-- Settles O25: DROUND responds with one double round; R does not occur in its meaning. -/
theorem droundAppliesOneDoubleRound : Obligations.DroundAppliesOneDoubleRound :=
  ⟨fun s => congrArg Host.Outcome.next (State.respond_eq s _), decode_encode .dround,
    fun _ ho hr => answeredIllegal_of_rsvdN ho (by decide) (by decide) hr⟩

/-- PERMUTE responds with R double rounds of the vector on DIN (R113). -/
theorem execPermute_eq (s : State) :
    execPermute s = .next (s.respond (wordsToBus (doubleRound^[s.config.rounds.toNat] (busWords s.din)))) := by
  rw [← permuteRounds_eq_iterate]
  rfl

/-- Settles O26: PERMUTE responds with the iterate of the double round, which for R = 1 is the double round. -/
theorem permuteAppliesTheDoubleRounds : Obligations.PermuteAppliesTheDoubleRounds := by
  refine ⟨fun s => ?_, fun s hR => ?_, decode_encode .permute,
    fun _ ho hr => answeredIllegal_of_rsvdN ho (by decide) (by decide) hr⟩
  · rw [← State.respond_eq]
    exact execPermute_eq s
  · refine (execPermute_eq s).trans ?_
    rw [hR]
    rfl

/-- QROUND, DROUND and PERMUTE respond with a function of the parameters and DIN (R110). -/
theorem exec_eq_respond_of_roundCommand {i : Instr} (hi : (∃ a b c d, i = .qround a b c d) ∨ i = .dround ∨ i = .permute) :
    ∃ out : Config → Bus → Bus, ∀ s, exec i s = .next (s.respond (out s.config s.din)) := by
  rcases hi with ⟨a, b, c, d, rfl⟩ | rfl | rfl
  · exact ⟨fun _ din => wordsToBus (quarterRound (busWords din) a b c d), fun _ => rfl⟩
  · exact ⟨fun _ din => wordsToBus (doubleRound (busWords din)), fun _ => rfl⟩
  · exact ⟨fun c din => wordsToBus (permuteRounds c.doubleRounds (busWords din)), fun _ => rfl⟩

/-- Settles O39: equal parameters and DIN give equal responses, and a response changes DOUT and RSP only. -/
theorem roundCommandsReadOnlyDin : Obligations.RoundCommandsReadOnlyDin := by
  intro i s t hi hdin hconfig
  obtain ⟨out, hout⟩ := exec_eq_respond_of_roundCommand hi
  refine ⟨_, _, _, _, hout s, hout t, ?_, rfl, rfl, rspCode_responseWord _ .ok, rspCode_responseWord _ .ok, rfl, rfl⟩
  rw [State.respond_dout, State.respond_dout, hconfig, hdin]

/-- A word of the feed-forward is the sum of the two vectors' words (R121). -/
theorem getElem_feedForward (x s0 : WordVec) (i : Fin 16) : (feedForward x s0)[i] = x[i] + s0[i] := by
  simp [feedForward]

/-- Settles O41: GEN_BLOCK's words are the permuted words plus the matrix words, which are those on DIN. -/
theorem permutePlusFeedForwardIsGenBlock : Obligations.PermutePlusFeedForwardIsGenBlock := by
  intro s p g hk hctr hdin hp hg i
  obtain rfl : _ = p := Host.Outcome.next.inj hp
  obtain rfl : _ = g := Host.Outcome.next.inj ((execGenBlock_ok hk hctr).symm.trans hg)
  rw [State.respond_dout, State.respond_dout, block, busWord_wordsToBus, busWord_wordsToBus, getElem_feedForward,
    ← getElem_busWords s.din, hdin]

end Sys2Proof.Machine
end

section
/-! PROOFS. The keystream family: GEN_BLOCK's block and the advance of the counter (spec 41_keystream_block.md R121 to R123), exhaustion
(R124), and the block that counting and seeking reach (R125, R128). -/

namespace Sys2Proof.Machine

variable {s t : State}

/-! ## The block -/

/-- Settles O42: a byte of the bus is a byte of its word, and a word of the feed-forward is a sum of words. -/
theorem blockBytesAreTheFeedForwardWords : Obligations.BlockBytesAreTheFeedForwardWords := by
  intro rounds s0 i j hi hj
  have hword : (4 * i + j) / 4 = i := by omega
  have hbyte : (4 * i + j) % 4 = j := by omega
  rw [block, getElem_wordsToBus]
  simp only [hword, hbyte]
  rw [← permuteRounds_eq_iterate]
  exact congrArg (wordByte · j) (getElem_feedForward _ _ ⟨i, hi⟩)

/-! ## The advance of the counter, in words -/

/-- Writing ctr writes its low word to S[8] and its high word to S[9] (R25). -/
theorem State.setCtr_concatWords (s : State) (hi lo : Word) :
    s.setCtr (concatWords hi lo) = { s with ctrLo := lo, ctrHi := hi } :=
  State.setCtr_ctr { s with ctrLo := lo, ctrHi := hi }

/-- One more carries out of the low word exactly when that word wraps to 0 (R123). -/
theorem concatWords_add_one (hi lo : Word) :
    concatWords hi lo + 1 = concatWords (if lo + 1 = 0 then hi + 1 else hi) (lo + 1) := by
  have hword : (1 : Word).toNat = 1 := rfl
  have hposition : (1 : Position).toNat = 1 := rfl
  have hwrap : lo + 1 = 0 ↔ (lo.toNat + 1) % 2 ^ 32 = 0 := by simp [← BitVec.toNat_inj]
  apply BitVec.eq_of_toNat_eq
  simp only [BitVec.toNat_add, toNat_concatWords, hword, hposition]
  split
  case isTrue h =>
    have := hwrap.1 h
    rw [BitVec.toNat_add, hword]
    omega
  case isFalse h =>
    have := mt hwrap.2 h
    omega

/-- ctr is exhausted exactly when both its words are all ones (R124). -/
theorem ctr_eq_exhausted_iff_words : s.ctr = exhaustedPosition ↔ s.ctrLo = 0xFFFFFFFF ∧ s.ctrHi = 0xFFFFFFFF := by
  have hones : exhaustedPosition = concatWords 0xFFFFFFFF 0xFFFFFFFF := by decide
  rw [hones]
  exact State.ctr_inj (t := { s with ctrLo := 0xFFFFFFFF, ctrHi := 0xFFFFFFFF })

/-- GEN_BLOCK's write of ctr, word by word (R123). -/
theorem State.setCtr_succ (s : State) :
    s.setCtr (s.ctr + 1) = { s with ctrLo := s.ctrLo + 1, ctrHi := if s.ctrLo + 1 = 0 then s.ctrHi + 1 else s.ctrHi } := by
  rw [State.ctr, concatWords_add_one, State.setCtr_concatWords]

/-- Settles O23: the advance word by word is `State.setCtr_succ`, and exhaustion is both words all ones. -/
theorem genBlockMakesTheBlockAndAdvances : Obligations.GenBlockMakesTheBlockAndAdvances := by
  refine ⟨fun s hk hc => ?_, fun s hk => ⟨_, execGenBlock_unkeyed hk, answersError_raise s .notInitialised⟩,
    fun s hk hlo hhi => ?_, decode_encode .genBlock, fun _ ho hr => answeredIllegal_of_rsvdN ho (by decide) (by decide) hr⟩
  · refine (execGenBlock_ok hk (mt ctr_eq_exhausted_iff_words.1 hc)).trans ?_
    rw [State.respond_eq, State.setCtr_succ, hk]
    rfl
  · exact ⟨_, execGenBlock_exhausted hk (ctr_eq_exhausted_iff_words.2 ⟨hlo, hhi⟩), answersError_raise s .counterExhausted⟩

/-! ## A GEN_BLOCK that completes -/

/-- While KEYED = 1 and ctr is not exhausted, GEN_BLOCK reports OK and raises ctr by one (R122, R123). -/
theorem execGenBlock_completes (hk : s.keyed = true) (hc : s.ctr ≠ exhaustedPosition) :
    ∃ t, exec .genBlock s = .next t ∧ t.rsp = some 0x10 ∧ t.ctr = s.ctr + 1 := by
  refine ⟨_, execGenBlock_ok hk hc, ?_, s.ctr_setCtr _⟩
  rw [State.respond_rsp, State.setCtr_keyed, hk, responseWord_keyed_ok]

/-- After a SET_POS to any position but the last, GEN_BLOCK completes there (R124). -/
theorem execSetPos_then_genBlock (hk : s.keyed = true) (hn : busPosition s.din ≠ exhaustedPosition) :
    ∃ u v, exec .setPos s = .next u ∧ exec .genBlock u = .next v ∧ v.rsp = some 0x10 ∧ v.ctr = busPosition s.din + 1 := by
  obtain ⟨v, hv, hrsp, hctr⟩ := execGenBlock_completes (s := (s.setCtr (busPosition s.din)).respond zeroBus) hk
    (by rwa [State.ctr_respond, State.ctr_setCtr])
  rw [State.ctr_respond, State.ctr_setCtr] at hctr
  exact ⟨_, v, execSetPos_ok hk, hv, hrsp, hctr⟩

/-- After an INIT, GEN_BLOCK completes at position 0 (R124). -/
theorem execInit_then_genBlock (s : State) :
    ∃ u v, exec (.init 32 8) s = .next u ∧ exec .genBlock u = .next v ∧ v.rsp = some 0x10 ∧ v.ctr = 1 := by
  obtain ⟨v, hv, hrsp, hctr⟩ := execGenBlock_completes (s := (s.load (busKey s.din) (busNonce s.din)).respond zeroBus) rfl
    (by rw [State.ctr_respond, State.ctr_load]; decide)
  rw [State.ctr_respond, State.ctr_load] at hctr
  exact ⟨_, v, execInit_ok s, hv, hrsp, hctr⟩

/-- Settles O43: a SET_POS elsewhere and an INIT both leave a keyed state whose counter is not exhausted. -/
theorem exhaustionIsReportedAndNotSticky : Obligations.ExhaustionIsReportedAndNotSticky := by
  intro s hk hc
  exact ⟨_, execGenBlock_exhausted hk hc, answersError_raise s .counterExhausted, fun _ hdin => execSetPos_then_genBlock hk hdin,
    fun _ => execInit_then_genBlock _⟩

/-- A GEN_BLOCK that reports OK answers BLOCK of the state before it and raises ctr by one (R122, R123). -/
theorem dout_ctr_of_execGenBlock_ok (h : exec .genBlock s = .next t) (hr : t.rsp = some 0x10) :
    t.dout = block s.config.doubleRounds s.matrix ∧ t.ctr = s.ctr + 1 := by
  rcases exec_cases .genBlock s with ⟨e, he, hs⟩ | ⟨u, out, hw, hs⟩
  · obtain rfl := Host.Outcome.next.inj (h.symm.trans hs)
    exact absurd (responseWord_eq_keyed_ok_iff.1 (Option.some.inj hr)).2 he.ne_ok
  · cases hw with
    | genBlock hk hc =>
      obtain rfl := Host.Outcome.next.inj (h.symm.trans (execGenBlock_ok hk hc))
      exact ⟨rfl, s.ctr_setCtr _⟩

/-! ## Counting blocks along a run -/

variable {cmd : Word} {din : Bus} {rest : List PortEvent} {k : Nat}

/-- 0x00000004 is GEN_BLOCK's word and no other command's (R74). -/
theorem decode_eq_genBlock_iff : decode cmd = .ok .genBlock ↔ cmd = 0x00000004 :=
  decode_eq_ok_iff_encode_eq.trans eq_comm

/-- A step that serves a word other than INIT's, SET_POS's and GEN_BLOCK's, illegal ones too, only samples DIN and answers (R58). -/
theorem step_command_eq_answer (hp : s.pending = .command cmd din :: rest) (h : step s = .next t)
    (hinit : decode cmd ≠ .ok (.init 32 8)) (hset : decode cmd ≠ .ok .setPos) (hgen : decode cmd ≠ .ok .genBlock) :
    ∃ code out, t = (s.accept din rest).answer code out := by
  rcases step_command_next hp h with ⟨_, rfl⟩ | ⟨_, e, _, _, rfl⟩ | ⟨i, u, out, hi, hw, rfl⟩
  · exact ⟨.illegalCommand, zeroBus, rfl⟩
  · exact ⟨e, zeroBus, rfl⟩
  · rw [hw.eq_self (fun e => hinit (e ▸ hi)) (fun e => hset (e ▸ hi)) (fun e => hgen (e ▸ hi))]
    exact ⟨.ok, out, rfl⟩

/-- `t` is keyed at block position `k`, with the key, nonce and parameters of `s`. DOUT, the response, DIN and the pending events are left
open. -/
structure AtBlock (s : State) (k : Nat) (t : State) : Prop where
  config : t.config = s.config
  key : t.key = s.key
  nonce : t.nonce = s.nonce
  keyed : t.keyed = true
  ctr : t.ctr = BitVec.ofNat 64 k

namespace AtBlock

/-- The matrix at position k is that of `s` with ctr = k. -/
theorem matrix (h : AtBlock s k t) : t.matrix = (s.setCtr (BitVec.ofNat 64 k)).matrix :=
  State.matrix_congr h.key h.nonce (h.ctr.trans (s.ctr_setCtr _).symm)

/-- Sampling DIN and answering change no position. -/
theorem answer (h : AtBlock s k t) (din : Bus) (rest : List PortEvent) (code : Status) (out : Bus) :
    AtBlock s k ((t.accept din rest).answer code out) :=
  ⟨h.config, h.key, h.nonce, h.keyed, h.ctr⟩

/-- A step that serves a word other than INIT's, SET_POS's and GEN_BLOCK's stays at its position. -/
theorem step_other (h : AtBlock s k t) (hp : t.pending = .command cmd din :: rest)
    (hinit : decode cmd ≠ .ok (.init 32 8)) (hset : decode cmd ≠ .ok .setPos) (hgen : cmd ≠ 0x00000004) :
    ∃ u, step t = .next u ∧ u.pending = rest ∧ AtBlock s k u := by
  obtain ⟨u, hu⟩ := stepsOn t
  obtain ⟨code, out, rfl⟩ := step_command_eq_answer hp hu hinit hset (mt decode_eq_genBlock_iff.1 hgen)
  exact ⟨_, hu, rfl, h.answer din rest code out⟩

/-- A command other than INIT keeps the key, nonce and parameters, so its position is the one it leaves in ctr. -/
theorem of_exec {u : State} {i : Instr} {n : Nat} (h : AtBlock s k t) (hi : i ≠ .init 32 8)
    (hu : exec i (t.accept din rest) = .next u) (hctr : u.ctr = BitVec.ofNat 64 n) : u.pending = rest ∧ AtBlock s n u := by
  obtain ⟨hconfig, -, hpending⟩ := exec_frame hu
  obtain ⟨hkey, hnonce, hkeyed⟩ := exec_key_nonce_keyed hu hi
  exact ⟨hpending, hconfig.trans h.config, hkey.trans h.key, hnonce.trans h.nonce, hkeyed.trans h.keyed, hctr⟩

/-- At position k a GEN_BLOCK answers block k and moves to position k + 1 (R122, R123). -/
theorem step_genBlock (h : AtBlock s k t) (hk : k < 2 ^ 64 - 1) (hp : t.pending = .command 0x00000004 din :: rest) :
    ∃ u, step t = .next u ∧ u.pending = rest ∧ AtBlock s (k + 1) u ∧ u.rsp = some 0x10 ∧
      u.dout = block s.config.doubleRounds (s.setCtr (BitVec.ofNat 64 k)).matrix := by
  have hc : (t.accept din rest).ctr = BitVec.ofNat 64 k := h.ctr
  obtain ⟨u, hu, hrsp, hctr⟩ := execGenBlock_completes (s := t.accept din rest) h.keyed (hc ▸ ofNat_ne_exhausted hk)
  obtain ⟨hdout, -⟩ := dout_ctr_of_execGenBlock_ok hu hrsp
  obtain ⟨hpu, hat⟩ := h.of_exec (n := k + 1) (by decide) hu (by rw [hctr, hc, BitVec.ofNat_add]; rfl)
  rw [State.accept_config, State.matrix_accept, h.config, h.matrix] at hdout
  exact ⟨u, (step_command hp (decode_encode .genBlock)).trans hu, hpu, hat, hrsp, hdout⟩

/-- A step that serves a command other than SET_POS and INIT moves on by one block exactly for a GEN_BLOCK. -/
theorem step_keepsCounting (h : AtBlock s k t) (hp : t.pending = .command cmd din :: rest)
    (hinit : decode cmd ≠ .ok (.init 32 8)) (hset : decode cmd ≠ .ok .setPos)
    (hk : k + (if cmd = 0x00000004 then 1 else 0) ≤ 2 ^ 64 - 1) :
    ∃ u, step t = .next u ∧ u.pending = rest ∧ AtBlock s (k + if cmd = 0x00000004 then 1 else 0) u := by
  split at hk
  · next hgen =>
    obtain ⟨u, hu, hpu, hat, -⟩ := h.step_genBlock (by omega) (hgen ▸ hp)
    exact ⟨u, hu, hpu, by rwa [if_pos hgen]⟩
  · next hgen =>
    rw [if_neg hgen]
    exact h.step_other hp hinit hset hgen

/-- A SET_POS moves to the position on DIN (R137). -/
theorem step_setPos {n : Nat} (h : AtBlock s k t) (hn : busPosition din = BitVec.ofNat 64 n)
    (hp : t.pending = .command 0x00000002 din :: rest) :
    ∃ u, step t = .next u ∧ u.pending = rest ∧ AtBlock s n u := by
  have hu := execSetPos_ok (s := t.accept din rest) h.keyed
  exact ⟨_, (step_command hp (decode_encode .setPos)).trans hu,
    h.of_exec (i := .setPos) (by decide) hu ((State.ctr_setCtr (t.accept din rest) _).trans hn)⟩

end AtBlock

/-- Neither SET_POS nor a successful INIT is among the commands (R125). -/
def KeepsCounting (cmds : List (Word × Bus)) : Prop :=
  ∀ c ∈ cmds, decode c.1 ≠ .ok .setPos ∧ decode c.1 ≠ .ok (.init 32 8)

/-- How many of the commands are GEN_BLOCKs. -/
def genBlocks (cmds : List (Word × Bus)) : Nat := (cmds.filter fun c => c.1 = 0x00000004).length

theorem genBlocks_cons (c : Word × Bus) (cmds : List (Word × Bus)) :
    genBlocks (c :: cmds) = (if c.1 = 0x00000004 then 1 else 0) + genBlocks cmds := by
  simp only [genBlocks, List.filter_cons, decide_eq_true_eq]
  split <;> simp [Nat.add_comm]

/-- The commands as port events. -/
def commandEvents (cmds : List (Word × Bus)) : List PortEvent := cmds.map fun c => .command c.1 c.2

/-- A run over commands without SET_POS and INIT moves on by the number of its GEN_BLOCKs (R125). -/
theorem AtBlock.run {cmds : List (Word × Bus)} (h : AtBlock s k t) (hcmds : KeepsCounting cmds)
    (hp : t.pending = commandEvents cmds ++ rest) (hk : k + genBlocks cmds ≤ 2 ^ 64 - 1) :
    ∃ u, core.run cmds.length t = .next u ∧ u.pending = rest ∧ AtBlock s (k + genBlocks cmds) u := by
  induction cmds generalizing k t with
  | nil => exact ⟨t, rfl, hp, h⟩
  | cons c cmds ih =>
    obtain ⟨hset, hinit⟩ := hcmds c List.mem_cons_self
    have htail : KeepsCounting cmds := fun d hd => hcmds d (List.mem_cons_of_mem c hd)
    rw [genBlocks_cons, ← Nat.add_assoc] at hk ⊢
    obtain ⟨u, hu, hpu, hat⟩ := h.step_keepsCounting hp hinit hset (by omega)
    obtain ⟨v, hv, hpv, hatv⟩ := ih hat htail hpu hk
    exact ⟨v, (run_succ _ hu).trans hv, hpv, hatv⟩

/-- The GEN_BLOCK after a run with k GEN_BLOCKs from position 0 answers block k and leaves ctr = k + 1 (R125). -/
theorem run_then_genBlock {cmds : List (Word × Bus)} (hs : s.keyed = true) (hc : s.ctr = 0) (hcmds : KeepsCounting cmds)
    (din : Bus) (hk : genBlocks cmds < 2 ^ 64 - 1) :
    ∃ t, core.run (cmds.length + 1) { s with pending := commandEvents cmds ++ [.command 0x00000004 din] } = .next t ∧
      AtBlock s (genBlocks cmds + 1) t ∧ t.rsp = some 0x10 ∧
      t.dout = block s.config.doubleRounds (s.setCtr (BitVec.ofNat 64 (genBlocks cmds))).matrix := by
  have hstart : AtBlock s 0 { s with pending := commandEvents cmds ++ [.command 0x00000004 din] } := ⟨rfl, rfl, rfl, hs, hc⟩
  obtain ⟨u, hu, hpu, hat⟩ := hstart.run hcmds rfl (by omega)
  rw [Nat.zero_add] at hat
  obtain ⟨t, ht, -, hat', hrsp, hdout⟩ := hat.step_genBlock hk hpu
  exact ⟨t, (run_add _ 1 hu).trans (run_succ 0 ht), hat', hrsp, hdout⟩

/-- Settles O44, from the run that counts and from what one successful GEN_BLOCK answers. -/
theorem kthGenBlockReturnsBlockK : Obligations.KthGenBlockReturnsBlockK := by
  refine ⟨fun s cmds din k hs hc hcmds hcount hk => ?_, fun s t => dout_ctr_of_execGenBlock_ok⟩
  obtain rfl : genBlocks cmds = k := hcount
  obtain ⟨t, ht, hat, hrsp, hdout⟩ := run_then_genBlock hs hc hcmds din hk
  exact ⟨t, ht, hdout, hat.ctr, hrsp, hat.key, hat.nonce, hat.keyed, hat.config⟩

/-! ## Counting and seeking -/

/-- GEN_BLOCK's output is a function of key, nonce, ctr and R (R128). -/
theorem execGenBlock_dout_congr {s' t' : State} (hs : s.keyed = true) (ht : t.keyed = true) (hx : s.ctr ≠ exhaustedPosition)
    (hkey : s.key = t.key) (hnonce : s.nonce = t.nonce) (hctr : s.ctr = t.ctr) (hconfig : s.config = t.config)
    (h : exec .genBlock s = .next s') (h' : exec .genBlock t = .next t') : s'.dout = t'.dout := by
  obtain rfl := Host.Outcome.next.inj (h.symm.trans (execGenBlock_ok hs hx))
  obtain rfl := Host.Outcome.next.inj (h'.symm.trans (execGenBlock_ok ht (hctr ▸ hx)))
  rw [State.respond_dout, State.respond_dout, hconfig, State.matrix_congr hkey hnonce hctr]

/-- GEN_BLOCKs alone, as commands of a counting run. -/
theorem keepsCounting_map_genBlock (dins : List Bus) : KeepsCounting (dins.map (0x00000004, ·)) := by
  intro c hc
  obtain ⟨din, -, rfl⟩ := List.mem_map.1 hc
  exact ⟨(by decide : decode 0x00000004 ≠ .ok .setPos), (by decide : decode 0x00000004 ≠ .ok (.init 32 8))⟩

theorem genBlocks_map_genBlock (dins : List Bus) : genBlocks (dins.map (0x00000004, ·)) = dins.length := by
  induction dins with
  | nil => rfl
  | cons din dins ih => rw [List.map_cons, genBlocks_cons, ih, if_pos rfl, Nat.add_comm, List.length_cons]

theorem commandEvents_map_genBlock (dins : List Bus) :
    commandEvents (dins.map (0x00000004, ·)) = dins.map (.command 0x00000004) := List.map_map

/-- SET_POS(n) and one GEN_BLOCK answer block n, from any position (R128, R139). -/
theorem AtBlock.run_seek {n : Nat} {seek gen : Bus} (h : AtBlock s k t) (hn : busPosition seek = BitVec.ofNat 64 n)
    (hlt : n < 2 ^ 64 - 1) (hp : t.pending = [.command 0x00000002 seek, .command 0x00000004 gen]) :
    ∃ u, core.run 2 t = .next u ∧ AtBlock s (n + 1) u ∧ u.rsp = some 0x10 ∧
      u.dout = block s.config.doubleRounds (s.setCtr (BitVec.ofNat 64 n)).matrix := by
  obtain ⟨v, hv, hpv, hat⟩ := h.step_setPos hn hp
  obtain ⟨u, hu, -, hat', hrsp, hdout⟩ := hat.step_genBlock hlt hpv
  exact ⟨u, (run_succ 1 hv).trans (run_succ 0 hu), hat', hrsp, hdout⟩

/-- Settles O46: the block depends on what the two states share, and both runs end at position n + 1 with block n. -/
theorem seekingGivesTheSameBlockAsCounting : Obligations.SeekingGivesTheSameBlockAsCounting := by
  refine ⟨fun s t s' t' => execGenBlock_dout_congr, fun s dins din seek gen hs hc hlt hseek => ?_⟩
  obtain ⟨t, ht, hatT, hrspT, hdoutT⟩ := run_then_genBlock hs hc (keepsCounting_map_genBlock dins) din
    (by rwa [genBlocks_map_genBlock])
  have hstart : AtBlock s 0 { s with pending := [.command 0x00000002 seek, .command 0x00000004 gen] } :=
    ⟨rfl, rfl, rfl, hs, hc⟩
  obtain ⟨u, hu, hatU, hrspU, hdoutU⟩ := hstart.run_seek hseek hlt rfl
  rw [genBlocks_map_genBlock] at hatT hdoutT
  rw [commandEvents_map_genBlock, List.length_map] at ht
  refine ⟨t, u, ?_, hu, hdoutT.trans hdoutU.symm, hatT.ctr.trans hatU.ctr.symm, hrspT, hrspU⟩
  rw [List.map_append]
  exact ht

end Sys2Proof.Machine
end

section
/-! PROOFS. The counter family: SET_POS and GET_POS as whole next states (spec 42_counter.md R135, R137, R138), and the position that
one command leaves for the next (R136, R139, R140). -/

namespace Sys2Proof.Machine

variable {s t : State}

/-! ## SET_POS and GET_POS, word by word -/

/-- Settles O21: the operand is LE64 of DIN[0..7], so its halves are the two words written. -/
theorem setPosWritesTheCounter : Obligations.SetPosWritesTheCounter := by
  refine ⟨fun s hk => ?_, fun s hk => ⟨_, execSetPos_unkeyed hk, answersError_raise s .notInitialised⟩,
    decode_encode .setPos, fun _ ho hr => answeredIllegal_of_rsvdN ho (by decide) (by decide) hr⟩
  refine (execSetPos_ok hk).trans ?_
  rw [State.respond_eq, busPosition, le64, State.setCtr_concatWords, hk]
  rfl

/-- Bytes 0..3 of the position are those of S[8], bytes 4..7 those of S[9] (R25, R54). -/
theorem positionByte_ctr (s : State) {j : Nat} (hj : j < 4) :
    positionByte s.ctr j = wordByte s.ctrLo j ∧ positionByte s.ctr (j + 4) = wordByte s.ctrHi j := by
  have hlo : s.ctr.extractLsb' 0 32 = s.ctrLo := congrArg State.ctrLo s.setCtr_ctr
  have hhi : s.ctr.extractLsb' 32 32 = s.ctrHi := congrArg State.ctrHi s.setCtr_ctr
  have hbytes := positionByte_halves s.ctr j hj
  rwa [hlo, hhi] at hbytes

/-- The bus GET_POS answers, by the words of the counter (R55, R82). -/
theorem positionToBus_ctr (s : State) : positionToBus s.ctr =
    Vector.ofFn fun j => if j.val < 4 then wordByte s.ctrLo j.val else if j.val < 8 then wordByte s.ctrHi (j.val - 4) else 0 := by
  ext j hj : 1
  rw [getElem_positionToBus, Vector.getElem_ofFn]
  by_cases h4 : j < 4
  · rw [if_pos (by omega), if_pos h4, (positionByte_ctr s h4).1]
  · rw [if_neg h4]
    by_cases h8 : j < 8
    · obtain ⟨i, rfl⟩ := Nat.exists_eq_add_of_le' (Nat.le_of_not_lt h4)
      rw [if_pos h8, if_pos h8, (positionByte_ctr s (by omega)).2, Nat.add_sub_cancel]
    · rw [if_neg h8, if_neg h8]

/-- Settles O22: the bus of the position is `positionToBus_ctr`, at every counter value. -/
theorem getPosReadsTheCounter : Obligations.GetPosReadsTheCounter := by
  refine ⟨fun s hk => ?_, fun s hk => ⟨_, execGetPos_unkeyed hk, answersError_raise s .notInitialised⟩,
    decode_encode .getPos, fun _ ho hr => answeredIllegal_of_rsvdN ho (by decide) (by decide) hr⟩
  refine (execGetPos_ok hk).trans ?_
  rw [State.respond_eq, positionToBus_ctr, hk]
  rfl

/-! ## The position from one command to the next -/

/-- While KEYED = 1, GET_POS answers LE64 of the position (R135). -/
theorem execGetPos_answers_ctr (hk : s.keyed = true) :
    ∃ u, exec .getPos s = .next u ∧ ∀ j (_ : j < 8), u.dout[j] = positionByte s.ctr j :=
  ⟨_, execGetPos_ok hk, getElem_positionToBus_of_lt s.ctr⟩

/-- A command that reports OK with KEYED = 1 leaves a keyed state (R80). -/
theorem keyed_of_exec_rsp {i : Instr} (h : exec i s = .next t) (hr : t.rsp = some 0x10) : t.keyed = true := by
  rcases exec_next h with ⟨_, _, rfl⟩ | ⟨_, _, _, rfl⟩ <;>
    exact (responseWord_eq_keyed_ok_iff.1 (Option.some.inj hr)).1

/-- An answer changes no word of S, nor KEYED. -/
theorem sameBlock_answer (s : State) (code : Status) (out : Bus) : SameBlock s (s.answer code out) :=
  ⟨rfl, rfl, rfl, rfl, rfl, rfl⟩

/-- Settles O47: GET_POS answers the ctr that the command before it left, and its own answer changes nothing it reads. -/
theorem positionsFollowTheCommands : Obligations.PositionsFollowTheCommands := by
  refine ⟨fun s hk => ?_, fun s hk hn => ?_, fun s t h hr => ?_, fun s t h => ?_⟩
  · obtain ⟨u, hu, hdout⟩ := execGetPos_answers_ctr (s := (s.setCtr (busPosition s.din)).respond zeroBus) hk
    rw [State.ctr_respond, State.ctr_setCtr] at hdout
    exact ⟨_, u, execSetPos_ok hk, hu, hdout⟩
  · obtain ⟨t, u, ht, hu, hrsp, hctr⟩ := execSetPos_then_genBlock hk hn
    obtain rfl := Host.Outcome.next.inj (ht.symm.trans (execSetPos_ok hk))
    obtain ⟨hdout, -⟩ := dout_ctr_of_execGenBlock_ok hu hrsp
    exact ⟨_, u, ht, rfl, rfl, rfl,
      fun i hi => State.word?_eq_of_isConstantPosition (State.isConstantPosition_iff.2 (by simpa using hi)), hu, hdout, hctr⟩
  · obtain ⟨-, hctr⟩ := dout_ctr_of_execGenBlock_ok h hr
    rw [← hctr]
    exact execGetPos_answers_ctr (keyed_of_exec_rsp h hr)
  · obtain ⟨code, out, rfl⟩ := exec_eq_answer h (by decide) (by decide) (by decide)
    exact ⟨sameBlock_answer s code out, _, (exec_answer .getPos s code out).trans h, rfl⟩

end Sys2Proof.Machine
end

section
/-! PROOFS. The INIT and GET_INFO family: the words INIT loads (spec 43_init_and_info.md R146, R148, R149), a failing INIT (R147), and
GET_INFO's answer (R150). -/

namespace Sys2Proof.Machine

/-! ## A failing INIT -/

/-- An INIT word with a reserved bit set is answered ILLEGAL_COMMAND (R76, R146). -/
theorem answeredIllegal_of_init_rsvdLQ {w : Word} (ho : w.extractLsb' 0 4 = 0x1) (hr : w.extractLsb' 20 12 ≠ 0) :
    AnsweredIllegal w :=
  answeredIllegal_of_not_legal (not_legal_of_rsvdLQ (.inl ho) hr)

/-- INIT with a wrong length is answered INVALID_LENGTH in every state (R146, R147). -/
theorem execInit_answersError (s : State) {klen nlen : Fin 256} (h : klen.val ≠ 32 ∨ nlen.val ≠ 8) :
    ∃ t, exec (.init klen nlen) s = .next t ∧ AnswersError s t 1 :=
  ⟨_, execInit_badLength h, answersError_raise s .invalidLength⟩

/-- Settles O28: a word with OPC = 1 is either refused by the decoder or read as an INIT with the lengths of its fields. -/
theorem failingInitKeepsTheInstance : Obligations.FailingInitKeepsTheInstance := by
  refine ⟨fun w => answeredIllegal_of_init_rsvdLQ, fun s w din rest hp ho hr hlen => ?_,
    fun s nlen => execInit_answersError s (.inl (by decide))⟩
  obtain ⟨-, hinit, -⟩ := decoderFollowsItsFieldTable w
  obtain ⟨klen, nlen, hdecode, hklen, hnlen⟩ := hinit ho hr
  have hbad : klen.val ≠ 32 ∨ nlen.val ≠ 8 := by
    rw [hklen, hnlen]
    exact hlen.imp BitVec.toNat_inj.not.2 BitVec.toNat_inj.not.2
  rw [step_command hp hdecode]
  exact execInit_answersError (s.accept din rest) hbad

/-! ## The words INIT loads -/

section Load

variable (s : State) (key : Vector Word 8) (nonce : Vector Word 2)

/-- K0..K3 are at S[1..4] (R22). -/
theorem State.word?_load_keyLow {i : Nat} (h : i < 4) : (s.load key nonce).word? ⟨1 + i, by omega⟩ = some key[i] := by
  interval_cases i <;> rfl

/-- K4..K7 are at S[11..14] (R22). -/
theorem State.word?_load_keyHigh {i : Nat} (h : i < 4) : (s.load key nonce).word? ⟨11 + i, by omega⟩ = some key[4 + i] := by
  interval_cases i <;> rfl

/-- N0 and N1 are at S[6] and S[7] (R23), and the counter words S[8] and S[9] are zero (R146). -/
theorem State.word?_load_nonce_ctr :
    (s.load key nonce).word? 6 = some nonce[0] ∧ (s.load key nonce).word? 7 = some nonce[1] ∧
      (s.load key nonce).word? 8 = some 0 ∧ (s.load key nonce).word? 9 = some 0 :=
  ⟨rfl, rfl, rfl, rfl⟩

end Load

/-- K4..K7 are the words of DIN[16..31] (R22, R84). -/
theorem getElem_busKey_high (b : Bus) {i : Nat} (h : i < 4) :
    (busKey b)[4 + i] = le32 b[16 + 4 * i] b[17 + 4 * i] b[18 + 4 * i] b[19 + 4 * i] := by
  rw [getElem_busKey]
  congr 2 <;> omega

/-- Settles O20: INIT loads the key and the nonce of DIN into the matrix, and its answer changes DOUT and RSP only. -/
theorem initLoadsKeyAndNonce : Obligations.InitLoadsKeyAndNonce := by
  refine ⟨fun s => ?_, fun s _ _ => execInit_answersError s, decode_encode (.init 32 8), fun _ => answeredIllegal_of_init_rsvdLQ⟩
  obtain ⟨h6, h7, h8, h9⟩ := s.word?_load_nonce_ctr (busKey s.din) (busNonce s.din)
  rw [getElem_busNonce] at h6 h7
  refine ⟨_, execInit_ok s, fun i hi => ?_, fun i hi => ?_, h6, h7, h8, h9, rfl, rfl, rfl, rfl, rfl, getElem_zeroBus,
    congrArg some responseWord_keyed_ok, rfl, rfl, rfl⟩
  · rw [State.word?_respond, State.word?_load_keyLow s _ _ hi, getElem_busKey]
  · rw [State.word?_respond, State.word?_load_keyHigh s _ _ hi, getElem_busKey_high _ hi]

/-! ## GET_INFO -/

/-- Settles O27: GET_INFO responds with the bus of INFO, and a response changes DOUT and RSP only. -/
theorem getInfoReadsInfo : Obligations.GetInfoReadsInfo := by
  refine ⟨fun s => ⟨_, rfl, busWord_wordToBus _, fun k hk h4 => ?_, State.respond_eq s _⟩, decode_encode .getInfo,
    fun _ ho hr => answeredIllegal_of_rsvdN ho (by decide) (by decide) hr⟩
  rw [State.respond_dout, getElem_wordToBus, if_neg (by omega)]

end Sys2Proof.Machine
end

section
/-! PROOFS. The host family: `new`, `seek_bytes`, `apply_keystream` and its chunks, and get_block_position (spec
45_host_orchestrator.md R162, R165, R166, R168 to R170). -/

namespace Sys2Proof.Machine.Orchestrator

variable {o o' : Orchestrator} {key nonce : List Byte} {klen nlen : Fin 256}

/-! ## `new` -/

/-- The block's step on the command the host presents ends in the block the host then has: a step never stops (R81, R233). -/
theorem step_present_command (o : Orchestrator) (i : Instr) (din : Bus) :
    step (o.block.present (encode i) din) = .next (o.command i din).block := by
  obtain ⟨t, ht⟩ := stepsOn (o.block.present (encode i) din)
  rw [command, ht]

/-- A length the command field cannot carry is refused without a command (R162). -/
theorem new_tooLong (o : Orchestrator) (h : key.length > 255 ∨ nonce.length > 255) : o.new key nonce = (o, .invalidLength) :=
  if_pos h

/-- With a 32-byte key and an 8-byte nonce `new` ends with them loaded and the cursor at 0 (R162). -/
theorem new_ok (o : Orchestrator) (hk : key.length = 32) (hn : nonce.length = 8) :
    o.new key nonce = ({ o with
      block := ((o.block.accept (newDin key nonce) o.block.pending).load (busKey (newDin key nonce))
        (busNonce (newDin key nonce))).respond zeroBus, cur := 0, exhaustedAt := none }, .ok) := by
  have hcommand := command_eq (o := o) (i := .init 32 8) (din := newDin key nonce) (decode_encode _) (execInit_ok _)
  have hk' : Fin.ofNat 256 key.length = 32 := by rw [hk]; rfl
  have hn' : Fin.ofNat 256 nonce.length = 8 := by rw [hn]; rfl
  rw [new, if_neg (by omega), hk', hn', hcommand]
  simp only [answered_respond, if_true, State.accept_din]

/-- With wrong lengths that the command field can carry the block refuses the INIT (R147, R162). -/
theorem new_badLength (o : Orchestrator) (hk : key.length = klen.val) (hn : nonce.length = nlen.val)
    (h : klen.val ≠ 32 ∨ nlen.val ≠ 8) :
    o.new key nonce =
      ({ o with block := (o.block.accept (newDin key nonce) o.block.pending).raise .invalidLength }, .invalidLength) := by
  have hcommand := command_eq (o := o) (i := .init klen nlen) (din := newDin key nonce) (decode_encode _) (execInit_badLength h)
  rw [new, if_neg (by omega), hk, hn, Fin.ofNat_val_eq_self, Fin.ofNat_val_eq_self, hcommand]
  simp [answered_raise]

/-- Every other length makes `new` fail: with the host unchanged, or with an INIT that the block refused. -/
theorem new_invalidLength (o : Orchestrator) (h : key.length ≠ 32 ∨ nonce.length ≠ 8) :
    ((key.length > 255 ∨ nonce.length > 255) ∧ o.new key nonce = (o, .invalidLength)) ∨
    (¬ (key.length > 255 ∨ nonce.length > 255) ∧ o.new key nonce =
      ({ o with block := (o.block.accept (newDin key nonce) o.block.pending).raise .invalidLength }, .invalidLength)) := by
  by_cases hlong : key.length > 255 ∨ nonce.length > 255
  · exact .inl ⟨hlong, new_tooLong o hlong⟩
  · exact .inr ⟨hlong, new_badLength (klen := ⟨key.length, by omega⟩) (nlen := ⟨nonce.length, by omega⟩) o rfl rfl h⟩

/-- `new` succeeds with legal lengths only (R162). -/
theorem lengths_of_new_ok (h : o.new key nonce = (o', .ok)) : key.length = 32 ∧ nonce.length = 8 := by
  by_contra hbad
  rcases new_invalidLength o (not_and_or.1 hbad) with ⟨-, e⟩ | ⟨-, e⟩ <;> rw [e] at h <;> simp at h

/-- A successful `new` leaves the instance at byte 0 (R169). -/
theorem new_atByte (h : o.new key nonce = (o', .ok)) : o'.AtByte 0 := by
  obtain ⟨hk, hn⟩ := lengths_of_new_ok h
  rw [new_ok o hk hn] at h
  obtain ⟨rfl, -⟩ := Prod.mk.inj h
  refine ⟨rfl, rfl, fun _ => ?_, fun hz => absurd rfl hz⟩
  simp only [State.ctr_respond, State.ctr_load]
  rfl

/-- DIN of `new` holds the key's bytes at DIN[0..31] and the nonce's at DIN[32..39] (R84, R162). -/
theorem getElem_newDin (hk : key.length = 32) (hn : nonce.length = 8) :
    (∀ k (_ : k < 32), (newDin key nonce)[k] = key.getD k 0) ∧
      ∀ k (_ : k < 8), (newDin key nonce)[32 + k] = nonce.getD k 0 := by
  rw [newDin, if_pos ⟨hk, hn⟩]
  refine ⟨fun k h => ?_, fun k h => ?_⟩ <;> rw [Vector.getElem_ofFn]
  · exact List.getD_append key nonce 0 k (by omega)
  · rw [List.getD_append_right key nonce 0 (32 + k) (by omega), hk, Nat.add_sub_cancel_left]

/-- The words INIT loads from the DIN of `new` are those of the key and the nonce, little-endian (R22, R23, R162). -/
theorem busKey_busNonce_newDin (hk : key.length = 32) (hn : nonce.length = 8) :
    (∀ i (_ : i < 8), (busKey (newDin key nonce))[i] =
      le32 (key.getD (4 * i) 0) (key.getD (4 * i + 1) 0) (key.getD (4 * i + 2) 0) (key.getD (4 * i + 3) 0)) ∧
    ∀ i (_ : i < 2), (busNonce (newDin key nonce))[i] =
      le32 (nonce.getD (4 * i) 0) (nonce.getD (4 * i + 1) 0) (nonce.getD (4 * i + 2) 0) (nonce.getD (4 * i + 3) 0) := by
  obtain ⟨hkey, hnonce⟩ := getElem_newDin hk hn
  refine ⟨fun i hi => ?_, fun i hi => ?_⟩
  · rw [getElem_busKey, hkey, hkey, hkey, hkey] <;> omega
  · rw [getElem_busNonce]
    simp only [Nat.add_assoc]
    rw [hnonce, hnonce, hnonce, hnonce] <;> omega

/-- Settles O52: legal lengths load what DIN holds (`new_ok`), others are refused by the host or by the block
(`new_invalidLength`), and what the host sends is one INIT with the true lengths (`new_block`). -/
theorem newBuildsAnInstance : Obligations.NewBuildsAnInstance := by
  refine ⟨fun o key nonce hk hn => ?_, fun o key nonce hbad => ?_, fun o key nonce klen nlen hk hn => ⟨?_, fun hbad din => ?_⟩⟩
  · obtain ⟨hkey, hnonce⟩ := busKey_busNonce_newDin hk hn
    refine ⟨_, new_ok o hk hn, rfl, rfl, ?_, rfl, rfl, hkey, hnonce⟩
    rw [State.ctr_respond, State.ctr_load]
  · rcases new_invalidLength o hbad with ⟨hlong, e⟩ | ⟨hfit, e⟩
    · exact ⟨o, e, ⟨rfl, rfl, rfl, rfl, rfl, rfl⟩, rfl, rfl, rfl, fun _ => rfl, fun _ _ => by omega⟩
    · exact ⟨_, e, ⟨rfl, rfl, rfl, rfl, rfl, rfl⟩, rfl, rfl, rfl,
        fun hlong => absurd hlong hfit, fun _ _ => ⟨rfl, getElem_zeroBus⟩⟩
  · exact ⟨newDin key nonce, by rw [new_block o hk hn, step_present_command]⟩
  · rw [new_badLength o hk hn hbad]
    exact ⟨(o.block.accept din o.block.pending).raise .invalidLength,
      (step_command rfl (decode_encode (.init klen nlen))).trans (execInit_badLength hbad), rfl⟩

/-! ## `seek_bytes` -/

/-- A successful seek found a keyed block (R202). -/
theorem keyed_of_seek_ok {n : Position} (h : o.seek n = (o', .ok)) : o.block.keyed = true := by
  by_contra hk
  rw [seek_unkeyed (Bool.eq_false_of_not_eq_true hk)] at h
  simp at h

/-- `seek(n)` with a keyed block goes to the first byte of block n (R164). -/
theorem seek_atByte (hk : o.block.keyed = true) (n : Position) :
    ∃ o', o.seek n = (o', .ok) ∧ o'.AtByte (64 * n.toNat) ∧ SameInstance o o' ∧ o'.mem = o.mem := by
  refine ⟨_, seek_keyed hk n, ⟨hk, ?_, fun _ => ?_, fun hz => absurd (Nat.mul_mod_right 64 _) hz⟩, ⟨rfl, rfl, rfl, rfl⟩, rfl⟩
  · exact (Nat.mul_mod_right 64 _).symm
  · rw [Nat.mul_div_cancel_left _ (by decide), State.ctr_respond, State.ctr_setCtr]

/-- Discarding `len` bytes moves the instance on by `len`, whatever the CounterExhausted condition, and writes no caller's buffer
(R165, log 13, log 17). -/
theorem discard_atByte {q len : Nat} (h : o.AtByte q) (hq : q + len ≤ 64 * (2 ^ 64 - 1)) :
    ∃ o', o.discard len = (o', .ok) ∧ o'.AtByte (q + len) ∧ SameInstance o o' ∧ o'.mem = o.mem := by
  obtain ⟨o1, happly, ⟨hconfig, hkey, hnonce, hkeyed⟩, hat, -⟩ :=
    applyKeystream_atByte (o := { o with mem := [], exhaustedAt := none }) (buf := 0) Memory.wf_nil h (.inr rfl) hq
  refine ⟨{ o1 with mem := o.mem, exhaustedAt := o.exhaustedAt }, ?_, hat, ⟨hconfig, hkey, hnonce, hkeyed⟩, rfl⟩
  rw [discard, happly]

/-- `seek_bytes(q)` with a keyed block goes to byte q: the seek to its block, then the discard of the bytes before it (R165). -/
theorem seekBytes_atByte (hk : o.block.keyed = true) (q : Position) :
    ∃ o', o.seekBytes q = (o', .ok) ∧ o'.AtByte q.toNat ∧ SameInstance o o' ∧ o'.mem = o.mem := by
  obtain ⟨o1, hseek, hat, hsame, hmem⟩ := seek_atByte hk (q / 64)
  have hdiv : (q / 64).toNat = q.toNat / 64 := BitVec.toNat_udiv
  have hlt := q.isLt
  rw [hdiv] at hat
  rw [seekBytes, hseek]
  by_cases hz : q.toNat % 64 = 0
  · rw [show 64 * (q.toNat / 64) = q.toNat by omega] at hat
    exact ⟨o1, if_neg (not_not.2 hz), hat, hsame, hmem⟩
  · obtain ⟨o2, hdiscard, hat2, hsame2, hmem2⟩ := discard_atByte (len := q.toNat % 64) hat (by omega)
    rw [Nat.div_add_mod] at hat2
    exact ⟨o2, (if_pos hz).trans hdiscard, hat2, hsame.trans hsame2, hmem2.trans hmem⟩

/-- A successful `seek_bytes` found a keyed block. -/
theorem keyed_of_seekBytes_ok {q : Position} (h : o.seekBytes q = (o', .ok)) : o.block.keyed = true := by
  rw [seekBytes] at h
  split at h
  · exact keyed_of_seek_ok ‹_›
  · simp_all

/-- A successful `seek_bytes(q)` leaves the instance at byte q (R165, R169). -/
theorem atByte_of_seekBytes_ok {q : Position} (h : o.seekBytes q = (o', .ok)) : o'.AtByte q.toNat := by
  obtain ⟨o1, hseek, hat, -⟩ := seekBytes_atByte (keyed_of_seekBytes_ok h) q
  obtain ⟨rfl, -⟩ := Prod.mk.inj (hseek.symm.trans h)
  exact hat

/-! ## `apply_keystream` -/

/-- `o'` is `o` after the keystream from byte q on was applied to `len` bytes from address `buf` (R169): they are xored with it, no
other byte of the host's memory changed, and the same instance stands at byte q + len. -/
structure Applied (o o' : Orchestrator) (buf len q : Nat) : Prop where
  same : SameInstance o o'
  atByte : o'.AtByte (q + len)
  wf : Memory.WF o'.mem
  xored : ∀ k < len, o'.mem.read (buf + k) = o.mem.read (buf + k) ^^^ o.keystreamByte (q + k)
  outside : ∀ a, a < buf ∨ buf + len ≤ a → o'.mem.read a = o.mem.read a

/-- A successful `apply_keystream` from byte q applies the keystream from there (R169). -/
theorem applied_of_applyKeystream_ok {buf len q : Nat} (hw : Memory.WF o.mem) (hat : o.AtByte q)
    (h : o.applyKeystream buf len = (o', .ok)) : Applied o o' buf len q := by
  have hx : o.blocksNeeded len = 0 ∨ o.exhaustedAt = none := (of_applyKeystream_ok h).imp_right And.left
  obtain ⟨o1, happly, hsame, hat1, hw1, hxor, hout⟩ :=
    applyKeystream_atByte (buf := buf) hw hat hx (le_of_applyKeystream_ok hat h)
  obtain ⟨rfl, -⟩ := Prod.mk.inj (happly.symm.trans h)
  exact ⟨hsame, hat1, hw1, hxor, hout⟩

/-- Settles O54, from where `new` and `seek_bytes` leave the instance and from what a successful `apply_keystream` applies. -/
theorem applyKeystreamXorsTheKeystream : Obligations.ApplyKeystreamXorsTheKeystream := by
  refine ⟨fun o o' key nonce => new_atByte, fun o o' q => atByte_of_seekBytes_ok, fun o o' buf len q hw hat h => ?_⟩
  obtain ⟨hsame, hat', hw', hxor, hout⟩ := applied_of_applyKeystream_ok hw hat h
  exact ⟨hxor, hout, hat', hw', hsame.key, hsame.nonce, hsame.config⟩

/-! ## Aligned and mid-block -/

/-- A successful `apply_keystream` moves the cursor by one per byte (R168). -/
theorem applyKeystream_cur {buf len : Nat} (h : o.applyKeystream buf len = (o', .ok)) :
    o'.cur.val = (o.cur.val + len) % 64 := by
  rw [applyKeystream] at h
  split at h
  · next o1 hcheck =>
    obtain ⟨-, -, -, -, hcur⟩ := checkBlocks_frame hcheck
    rw [applyBytes_cur h, hcur]
  · simp_all

/-- One that returns CounterExhausted failed in its check and leaves the cursor (R167, R168). -/
theorem applyKeystream_exhausted_cur {buf len : Nat} (h : o.applyKeystream buf len = (o', .counterExhausted)) :
    o'.cur = o.cur := by
  rw [applyKeystream] at h
  split at h
  · exact absurd rfl (applyBytes_exhaustedAt h).2
  · next o1 r _ hcheck =>
    obtain ⟨rfl, rfl⟩ := Prod.mk.inj h
    obtain ⟨-, -, -, -, hcur⟩ := checkBlocks_frame hcheck
    exact hcur

/-- get_block_position of a keyed block (R166). -/
theorem getBlockPosition_keyed (hk : o.block.keyed = true) : o.getBlockPosition = (o.afterGetPos, .ok) := by
  simp only [getBlockPosition, command_getPos hk, answered_respond, if_true]

/-- Settles O56: each operation's own lemma says where it leaves the cursor, and GET_POS answers ctr, which `AtByte` places. -/
theorem hostStateTransitions : Obligations.HostStateTransitions := by
  refine ⟨fun o o' key nonce h => Fin.ext (new_atByte h).2.1, fun o o' n h => ?_,
    fun o o' q h => (atByte_of_seekBytes_ok h).2.1, fun o o' buf len => applyKeystream_cur,
    fun o o' buf len => applyKeystream_exhausted_cur, fun o q ⟨hk, hcur, _, hmid⟩ => ?_⟩
  · rw [seek_keyed (keyed_of_seek_ok h)] at h
    obtain ⟨rfl, -⟩ := Prod.mk.inj h
    rfl
  · have hpos : busPosition o.afterGetPos.block.dout = o.block.ctr := busPosition_positionToBus o.block.ctr
    exact ⟨_, getBlockPosition_keyed hk, hpos, fun hc => hmid fun hz => hc (Fin.ext (hcur.trans hz))⟩

/-! ## Chunks -/

/-- Two hosts at the same keystream byte have the same cursor and block position (R169). -/
theorem AtByte.cur_ctr_eq {q : Nat} (h : o.AtByte q) (h' : o'.AtByte q) : o.cur = o'.cur ∧ o.block.ctr = o'.block.ctr := by
  obtain ⟨-, hcur, haligned, hmid⟩ := h
  obtain ⟨-, hcur', haligned', hmid'⟩ := h'
  refine ⟨Fin.ext (hcur.trans hcur'.symm), BitVec.eq_of_toNat_eq ?_⟩
  by_cases hz : q % 64 = 0
  · rw [haligned hz, haligned' hz]
  · rw [(hmid hz).1, (hmid' hz).1]

namespace Applied

variable {o1 o2 : Orchestrator} {buf a b len q : Nat}

theorem nil (hw : Memory.WF o.mem) (hat : o.AtByte q) : Applied o o buf 0 q :=
  ⟨.refl o, hat, hw, by simp, fun _ _ => rfl⟩

/-- Applying the keystream to one chunk and then to the chunk after it applies it to both. -/
theorem append (h1 : Applied o o1 buf a q) (h2 : Applied o1 o2 (buf + a) b (q + a)) : Applied o o2 buf (a + b) q where
  same := h1.same.trans h2.same
  atByte := Nat.add_assoc q a b ▸ h2.atByte
  wf := h2.wf
  xored k hk := by
    by_cases hka : k < a
    · rw [h2.outside _ (by omega), h1.xored k hka]
    · obtain ⟨j, rfl⟩ := Nat.exists_eq_add_of_le (Nat.le_of_not_lt hka)
      rw [← Nat.add_assoc, ← Nat.add_assoc, h2.xored j (by omega), h1.outside _ (by omega), keystreamByte_congr h1.same]
  outside x hx := by rw [h2.outside x (by omega), h1.outside x (by omega)]

/-- What is applied fixes the host's memory, the cursor and the block position. -/
theorem unique (h1 : Applied o o1 buf len q) (h2 : Applied o o2 buf len q) :
    o1.mem = o2.mem ∧ o1.cur = o2.cur ∧ o1.block.ctr = o2.block.ctr := by
  refine ⟨Memory.eq_of_read h1.wf h2.wf fun x => ?_, h1.atByte.cur_ctr_eq h2.atByte⟩
  by_cases hx : x < buf ∨ buf + len ≤ x
  · rw [h1.outside x hx, h2.outside x hx]
  · obtain ⟨k, rfl⟩ := Nat.exists_eq_add_of_le (show buf ≤ x by omega)
    rw [h1.xored k (by omega), h2.xored k (by omega)]

end Applied

/-- Successful calls over the chunks apply the keystream to the whole (R170). -/
theorem applied_of_applyChunks_ok {buf q : Nat} {lens : List Nat} (hw : Memory.WF o.mem) (hat : o.AtByte q)
    (h : o.applyChunks buf lens = (o', .ok)) : Applied o o' buf lens.sum q := by
  induction lens generalizing o buf q with
  | nil =>
    obtain ⟨rfl, -⟩ := Prod.mk.inj h
    exact .nil hw hat
  | cons len lens ih =>
    rw [applyChunks] at h
    split at h
    · next o1 happly =>
      have hchunk := applied_of_applyKeystream_ok hw hat happly
      rw [List.sum_cons]
      exact hchunk.append (ih hchunk.wf hchunk.atByte h)
    · simp_all

/-- Settles O57: the chunks and the one call apply the same keystream to the same bytes, which fixes how both end. -/
theorem chunkingDoesNotChangeTheResult : Obligations.ChunkingDoesNotChangeTheResult :=
  fun _ _ _ _ _ _ hw hat hchunks hwhole => (applied_of_applyChunks_ok hw hat hchunks).unique (applied_of_applyKeystream_ok hw hat hwhole)

end Sys2Proof.Machine.Orchestrator
end

section
/-! PROOFS. The exceptions family: the status code a served command gets and its causes (spec 60_exceptions.md R200, R207), and what a
failing command leaves (R205). -/

namespace Sys2Proof.Machine

variable {s t : State} {cmd w : Word} {din : Bus} {rest : List PortEvent} {i : Instr} {e : Status}

/-- The errors a served command word gets: ILLEGAL_COMMAND from the decoder, "decided from CMD alone", and else the error its command
raises (R204, R207). -/
inductive CommandRaises (cmd : Word) (s : State) : Status → Prop where
  | illegal : (∀ i, decode cmd ≠ .ok i) → CommandRaises cmd s .illegalCommand
  | command {i : Instr} {e : Status} : decode cmd = .ok i → Raises i s e → CommandRaises cmd s e

/-- A command with a cause for an error raises that error: the causes of R207 exclude each other. -/
theorem Raises.exec_eq (h : Raises i s e) : exec i s = .next (s.raise e) := by
  cases h with
  | length h => exact execInit_badLength h
  | setPos hk => exact execSetPos_unkeyed hk
  | getPos hk => exact execGetPos_unkeyed hk
  | genBlock hk => exact execGenBlock_unkeyed hk
  | exhausted hk hc => exact execGenBlock_exhausted hk hc

/-- GEN_BLOCK, GET_POS and SET_POS have KEYED = 0 as a cause (R202). -/
theorem raises_unkeyed (hk : s.keyed = false) (hi : i = .genBlock ∨ i = .getPos ∨ i = .setPos) : Raises i s .notInitialised := by
  rcases hi with rfl | rfl | rfl
  · exact .genBlock hk
  · exact .getPos hk
  · exact .setPos hk

/-- A word with a cause for an error is answered with that error, at the state that has sampled DIN. -/
theorem CommandRaises.step_eq (h : CommandRaises cmd (s.accept din rest) e) (hp : s.pending = .command cmd din :: rest) :
    step s = .next ((s.accept din rest).raise e) := by
  cases h with
  | illegal hd => exact step_illegal hp hd
  | command hd hr => exact (step_command hp hd).trans hr.exec_eq

/-- The response to a word with a cause for an error carries that error's code (R200). -/
theorem CommandRaises.rspCode_eq (h : CommandRaises cmd (s.accept din rest) e) (hp : s.pending = .command cmd din :: rest)
    (hs : step s = .next t) (hw : t.rsp = some w) : rspCode w = statusCode e := by
  obtain rfl := Host.Outcome.next.inj (hs.symm.trans (h.step_eq hp))
  obtain rfl := Option.some.inj hw
  exact rspCode_responseWord _ _

/-- A step that answers a command with a code other than 0 had a cause for an error, and only raised it: a completed command reports
OK. -/
theorem exists_commandRaises_of_rspCode_ne_zero (hp : s.pending = .command cmd din :: rest) (hs : step s = .next t)
    (hw : t.rsp = some w) (hc : rspCode w ≠ 0) :
    ∃ e, CommandRaises cmd (s.accept din rest) e ∧ t = (s.accept din rest).raise e := by
  rcases step_command_next hp hs with ⟨hd, ht⟩ | ⟨i, e, hd, hr, ht⟩ | ⟨_, _, _, _, _, rfl⟩
  · exact ⟨_, .illegal hd, ht⟩
  · exact ⟨e, .command hd hr, ht⟩
  · obtain rfl := Option.some.inj hw
    exact absurd (rspCode_responseWord _ .ok) hc

/-- Settles O16: each cause fixes the code, and a code other than 0 has one of the causes of `CommandRaises`. -/
theorem statusCodesHaveTheirCauses : Obligations.StatusCodesHaveTheirCauses := by
  intro s t cmd din rest w hp hs hw
  have hcode {e : Status} (h : CommandRaises cmd (s.accept din rest) e) : w.extractLsb' 0 4 = statusCode e :=
    h.rspCode_eq hp hs hw
  refine ⟨fun hd => hcode (.illegal hd), fun _ _ hd hlen => hcode (.command hd (.length hlen)),
    fun _ hd hi hk => hcode (.command hd (raises_unkeyed hk hi)), fun hd hk hc => hcode (.command hd (.exhausted hk hc)),
    fun hne => ?_⟩
  obtain ⟨e, hcause, -⟩ := exists_commandRaises_of_rspCode_ne_zero hp hs hw hne
  cases hcause with
  | illegal hd => exact .inl hd
  | command hd hr =>
    cases hr with
    | length hlen => exact .inr (.inl ⟨_, _, hd, hlen⟩)
    | setPos hk => exact .inr (.inr (.inl ⟨_, hd, .inr (.inr rfl), hk⟩))
    | getPos hk => exact .inr (.inr (.inl ⟨_, hd, .inr (.inl rfl), hk⟩))
    | genBlock hk => exact .inr (.inr (.inl ⟨_, hd, .inl rfl, hk⟩))
    | exhausted hk hc => exact .inr (.inr (.inr ⟨hd, hk, hc⟩))

/-- Settles O17: a failing step only raised an error after sampling DIN, and its code is that error's. -/
theorem failingCommandChangesNoBlockState : Obligations.FailingCommandChangesNoBlockState := by
  intro s t cmd din rest w hp hs hw hne
  obtain ⟨e, hcause, rfl⟩ := exists_commandRaises_of_rspCode_ne_zero hp hs hw hne
  have hcode : w.extractLsb' 0 4 = statusCode e := hcause.rspCode_eq hp hs hw
  rw [hcode]
  exact answersError_raise (s.accept din rest) e

end Sys2Proof.Machine
end

section
/-! PROOFS. The reset and hazards family: the reset event's state, and the events that clear KEYED (spec 70_reset_and_hazards.md R220,
R221). -/

namespace Sys2Proof.Machine

/-- Only a reset turns KEYED from 1 to 0, served between commands or cutting one (R220, R221): an idle step changes nothing, and a
command's step keeps KEYED or sets it. -/
theorem pending_reset_of_step_clears_keyed {s t : State} (h : step s = .next t) (hs : s.keyed = true) (ht : t.keyed = false) :
    ∃ rest, s.pending = .reset :: rest ∨ ∃ cmd din, s.pending = .commandCutByReset cmd din :: rest := by
  cases hp : s.pending with
  | nil =>
    obtain rfl : s = t := Host.Outcome.next.inj ((step_idle hp).symm.trans h)
    simp [hs] at ht
  | cons e rest =>
    cases e with
    | reset => exact ⟨rest, .inl rfl⟩
    | commandCutByReset cmd din => exact ⟨rest, .inr ⟨cmd, din, rfl⟩⟩
    | command cmd din =>
      obtain ⟨⟨_, ht'⟩ | ht', _⟩ := step_command_keyed hp h
      · simp [ht'] at ht
      · simp [ht', hs] at ht

/-- Settles O10: a reset step answers `State.resetBlock`, whose KEYED = 0 leaves a value in the constant words only, and no other
step clears KEYED (`pending_reset_of_step_clears_keyed`). -/
theorem resetEventRestoresTheResetState : Obligations.ResetEventRestoresTheResetState := by
  refine ⟨fun s rest hp => ⟨s.resetBlock rest, step_reset hp, rfl, by simp, State.word?_zero _, State.word?_five _,
    State.word?_ten _, State.word?_fifteen _, fun i hi => ?_, rfl, rfl⟩, fun s t => pending_reset_of_step_clears_keyed⟩
  exact State.word?_eq_none rfl (by revert i; decide)

end Sys2Proof.Machine
end

section
/-! PROOFS. The encoding round trips (spec 30_encoding.md R72, R76, R78) and the assembler (R85, R86). -/

namespace Sys2Proof

/-- Settles O1: a command's word encodes that command, and each word decodes to the one command it encodes. -/
theorem decodeOfEncodeIsTheCommand : Obligations.DecodeOfEncodeIsTheCommand := decode_encode

/-- Settles O2: to decode to a command is to be its encoding. -/
theorem encodeOfDecodeIsTheWord : Obligations.EncodeOfDecodeIsTheWord := fun _ _ => decode_eq_ok_iff_encode_eq.1

namespace Machine

/-! ## The assembler -/

/-- A program whose lines all have an encoding assembles to its expansion's commands (R85). -/
theorem assemble_eq_some {lines : List AsmLine} (h : ∀ line ∈ lines, line.wellFormed = true) :
    assemble lines = some (commandsOf zeroBus (lines.flatMap expandLine)) := if_pos (List.all_eq_true.2 h)

/-- A program with a line that has no encoding is refused (R85). -/
theorem assemble_eq_none {line : AsmLine} {lines : List AsmLine} (hmem : line ∈ lines) (h : line.wellFormed = false) :
    assemble lines = none :=
  if_neg fun hall => by simp [List.all_eq_true.1 hall line hmem] at h

theorem wellFormed_init_eq_false {klen nlen : Nat} (h : 255 < klen ∨ 255 < nlen) :
    (AsmLine.init (some klen) (some nlen)).wellFormed = false := by
  simp only [AsmLine.wellFormed, lengthInRange, Option.getD_some, Bool.and_eq_false_iff, decide_eq_false_iff_not]
  omega

theorem wellFormed_qround_eq_false {a b c d : Nat} (h : 15 < a ∨ 15 < b ∨ 15 < c ∨ 15 < d) :
    (AsmLine.qround a b c d).wellFormed = false := by
  simp only [AsmLine.wellFormed, positionInRange, Bool.and_eq_false_iff, decide_eq_false_iff_not]
  omega

/-- The `.din` directive with a key and a nonce has an encoding when both have their length (R85). -/
theorem wellFormed_keyNonce {key nonce : List Byte} (hk : key.length = 32) (hn : nonce.length = 8) :
    (DinDirective.keyNonce key nonce).wellFormed = true := by
  simp [DinDirective.wellFormed, hk, hn, keyLen, nonceLen]

/-- The `.din` directive gives the bytes the host's `new` puts on DIN, and zero bytes after them (R85, R162). -/
theorem getElem_directiveBus_keyNonce {key nonce : List Byte} (hk : key.length = 32) (hn : nonce.length = 8) :
    (∀ k (_ : k < 32), (directiveBus (.keyNonce key nonce))[k] = key.getD k 0) ∧
    (∀ k (_ : k < 8), (directiveBus (.keyNonce key nonce))[32 + k] = nonce.getD k 0) ∧
    ∀ k (_ : k < 64), 40 ≤ k → (directiveBus (.keyNonce key nonce))[k] = 0 := by
  have hnew : Orchestrator.newDin key nonce = directiveBus (.keyNonce key nonce) := if_pos ⟨hk, hn⟩
  obtain ⟨hkey, hnonce⟩ := Orchestrator.getElem_newDin hk hn
  rw [hnew] at hkey hnonce
  refine ⟨hkey, hnonce, fun k h hz => ?_⟩
  rw [directiveBus, Vector.getElem_ofFn, List.getD_eq_default]
  simp only [List.length_append, hk, hn]
  exact hz

/-- Settles O7: each accepted program assembles to its expansion's commands (`assemble_eq_some`), and one line outside its range
refuses the program (`assemble_eq_none`). -/
theorem assemblerExpandsAndRefuses : Obligations.AssemblerExpandsAndRefuses := by
  refine ⟨fun key nonce hk hn => ?_, fun n hn => ?_, rfl, fun a b c d => rfl, fun klen nlen lines h hmem => ?_,
    fun a b c d lines h hmem => ?_⟩
  · have hwf := wellFormed_keyNonce hk hn
    have hnew : assemble [.new key nonce] = some [.command 0x00008201 (directiveBus (.keyNonce key nonce))] :=
      assemble_eq_some (List.forall_mem_singleton.2 hwf)
    have hdin : assemble [.din (.keyNonce key nonce), .init none none] =
        some [.command 0x00008201 (directiveBus (.keyNonce key nonce))] :=
      assemble_eq_some (List.forall_mem_cons.2 ⟨hwf, List.forall_mem_singleton.2 rfl⟩)
    exact ⟨hnew.trans hdin.symm, _, hnew, getElem_directiveBus_keyNonce hk hn⟩
  · refine ⟨positionToBus (BitVec.ofNat 64 n), assemble_eq_some (List.forall_mem_singleton.2 (decide_eq_true hn)),
      busPosition_positionToBus _, fun k h hk => ?_⟩
    rw [getElem_positionToBus, if_neg (by omega)]
  · exact assemble_eq_none hmem (wellFormed_init_eq_false h)
  · exact assemble_eq_none hmem (wellFormed_qround_eq_false h)

end Machine

end Sys2Proof
end

section
/-! PROOFS. The step and the port: a decoded command, an idle block, a command cut by reset, runs that never stop (spec 20_memory.md R57;
70_reset_and_hazards.md R221, R222, R233), and the invariant of the state and its port. -/

namespace Sys2Proof.Machine

/-! ## The invariant -/

/-- The reset state of a legal instance is silent, unkeyed and has a zero DOUT (R35, R220). -/
theorem inv_resetBlock {s : State} (h : s.config.Legal) (rest : List PortEvent) : (s.resetBlock rest).Inv :=
  ⟨h, fun _ => ⟨rfl, rfl⟩, fun _ hw => absurd hw (by simp)⟩

/-- Answering establishes the invariant: the response word is that of the KEYED it stands beside, and only OK has a DOUT that is
not zero (R80, R205). -/
theorem inv_answer {s : State} {code : Status} {out : Bus} (h : s.config.Legal) (hout : code ≠ .ok → out = zeroBus) :
    (s.answer code out).Inv :=
  ⟨h, fun hr => absurd hr (by simp), fun _ hw => ⟨code, (Option.some.inj hw).symm, hout⟩⟩

/-- Settles O18: a step waits, resets, raises an error with a zero DOUT, or responds OK, and none changes R. -/
theorem everyStepKeepsTheInvariant : Obligations.EveryStepKeepsTheInvariant := by
  intro s t hs h
  have hlegal := hs.legalRounds
  rcases step_next h with ⟨_, rfl⟩ | ⟨rest, _, rfl⟩ | ⟨_, _, _, _, _, rfl⟩ | ⟨_, _, _, _, _, _, _, _, rfl⟩ |
    ⟨_, din, rest, _, u, _, _, _, hw, rfl⟩
  · exact hs
  · exact inv_resetBlock hlegal rest
  · exact inv_answer hlegal fun _ => rfl
  · exact inv_answer hlegal fun _ => rfl
  · obtain ⟨hconfig, -⟩ := hw.frame
    have hu : u.config.Legal := by rw [hconfig]; exact hlegal
    exact inv_answer hu fun hne => absurd rfl hne

/-- Settles O19: R = 10 is legal, and the reset state is that of the reset event with nothing pending. -/
theorem invariantHoldsAfterReset : Obligations.InvariantHoldsAfterReset :=
  have hinv (c : Config) (h : c.Legal) : (State.resetFor c).Inv := inv_resetBlock (s := State.resetFor c) h []
  ⟨hinv, hinv .standard (by decide)⟩

/-! ## Single steps and runs -/

/-- Settles O8, from the step on a pending command. -/
theorem stepRunsTheDecodedCommand : Obligations.StepRunsTheDecodedCommand := fun _ _ _ _ _ => step_command

/-- Settles O9, from the step with nothing pending. -/
theorem idleBlockWaits : Obligations.IdleBlockWaits := fun _ => step_idle

/-- Settles O12: the step on a cut command and the step on a reset answer the same `State.resetBlock`. -/
theorem commandCutByResetHasNoEffect : Obligations.CommandCutByResetHasNoEffect := by
  intro s cmd din rest hp
  have hcut : step s = .next (s.resetBlock rest) := step_cut hp
  have hreset : step { s with pending := .reset :: rest } = .next (s.resetBlock rest) := step_reset rfl
  exact ⟨hcut.trans hreset.symm, hcut, rfl⟩

/-- Every run of k steps ends in a next state (R233). -/
theorem exists_run_eq_next (k : Nat) (s : State) : ∃ t, core.run k s = .next t := by
  induction k generalizing s with
  | zero => exact ⟨s, run_zero s⟩
  | succ k ih =>
    obtain ⟨u, hu⟩ := stepsOn s
    obtain ⟨t, ht⟩ := ih u
    exact ⟨t, (run_succ k hu).trans ht⟩

/-- Settles O14: no step stops, so no run does. -/
theorem noRunStops : Obligations.NoRunStops := ⟨stepsOn, exists_run_eq_next⟩

end Sys2Proof.Machine
end

section
/-! PROOFS. Sequences of commands: four QROUNDs make a round (spec 40_round_function.md R112), and the block capacity of a key and nonce
(41_keystream_block.md R127). -/

namespace Sys2Proof.Machine

variable {s t : State}

/-! ## Four QROUNDs -/

/-- The words on DOUT after QROUND are one quarter-round of the words on DIN (R109). -/
theorem busWords_dout_of_execQround {a b c d : Fin 16} (h : exec (.qround a b c d) s = .next t) :
    busWords t.dout = quarterRound (busWords s.din) a b c d := by
  obtain rfl : s.respond (wordsToBus (quarterRound (busWords s.din) a b c d)) = t := Host.Outcome.next.inj h
  rw [State.respond_dout, busWords_wordsToBus]

/-- Four QROUNDs, each DOUT the next DIN, apply their quarter-rounds in order. -/
theorem busWords_dout_of_four_qrounds {p q r u : Quad} {s1 s2 s3 s4 : State}
    (h1 : exec (.qround p.1 p.2.1 p.2.2.1 p.2.2.2) s = .next s1)
    (h2 : exec (.qround q.1 q.2.1 q.2.2.1 q.2.2.2) { s1 with din := s1.dout } = .next s2)
    (h3 : exec (.qround r.1 r.2.1 r.2.2.1 r.2.2.2) { s2 with din := s2.dout } = .next s3)
    (h4 : exec (.qround u.1 u.2.1 u.2.2.1 u.2.2.2) { s3 with din := s3.dout } = .next s4) :
    busWords s4.dout = stages [p, q, r, u] (busWords s.din) := by
  rw [busWords_dout_of_execQround h4, busWords_dout_of_execQround h3, busWords_dout_of_execQround h2,
    busWords_dout_of_execQround h1]
  rfl

/-- Settles O40: each round is its four quarter-rounds in order. -/
theorem fourQroundsComputeARound : Obligations.FourQroundsComputeARound := fun s _ _ _ _ =>
  ⟨fun h1 h2 h3 h4 => (busWords_dout_of_four_qrounds (p := (0, 4, 8, 12)) (q := (5, 9, 13, 1)) (r := (10, 14, 2, 6))
      (u := (15, 3, 7, 11)) h1 h2 h3 h4).trans (columnRound_eq_stages (busWords s.din)).symm,
    fun h1 h2 h3 h4 => (busWords_dout_of_four_qrounds (p := (0, 1, 2, 3)) (q := (5, 6, 7, 4)) (r := (10, 11, 8, 9))
      (u := (15, 12, 13, 14)) h1 h2 h3 h4).trans (rowRound_eq_stages (busWords s.din)).symm⟩

/-! ## The block capacity -/

variable {din : Bus} {rest : List PortEvent} {k : Nat}

/-- At position 2^64 - 1 a GEN_BLOCK is answered COUNTER_EXHAUSTED and stays there (R124). -/
theorem AtBlock.step_genBlock_exhausted (h : AtBlock s (2 ^ 64 - 1) t) (hp : t.pending = .command 0x00000004 din :: rest) :
    ∃ u, step t = .next u ∧ u.pending = rest ∧ AtBlock s (2 ^ 64 - 1) u ∧ u.rsp = some 0x12 ∧ u.dout = zeroBus := by
  have hexec := execGenBlock_exhausted (s := t.accept din rest) h.keyed h.ctr
  refine ⟨_, (step_command hp (decode_encode .genBlock)).trans hexec, rfl, h.answer din rest .counterExhausted zeroBus, ?_, rfl⟩
  rw [State.raise_rsp, State.accept_keyed, h.keyed]
  rfl

/-- The position after k GEN_BLOCKs from position 0: the counter stops at 2^64 - 1 (R123, R124). -/
def positionAfter (k : Nat) : Nat := min k (2 ^ 64 - 1)

theorem positionAfter_of_le (h : k ≤ 2 ^ 64 - 1) : positionAfter k = k := Nat.min_eq_left h

theorem positionAfter_of_ge (h : 2 ^ 64 - 1 ≤ k) : positionAfter k = 2 ^ 64 - 1 := Nat.min_eq_right h

/-- A GEN_BLOCK after k others moves to the position after k + 1, and is answered OK exactly within the capacity (R127). -/
theorem AtBlock.step_genBlock_capacity (h : AtBlock s (positionAfter k) t) (hp : t.pending = .command 0x00000004 din :: rest) :
    ∃ u, step t = .next u ∧ u.pending = rest ∧ AtBlock s (positionAfter (k + 1)) u ∧
      (k + 1 ≤ 2 ^ 64 - 1 → u.rsp = some 0x10) ∧ (2 ^ 64 - 1 < k + 1 → u.rsp = some 0x12 ∧ u.dout = zeroBus) := by
  by_cases hk : k < 2 ^ 64 - 1
  · rw [positionAfter_of_le (Nat.le_of_lt hk)] at h
    rw [positionAfter_of_le (k := k + 1) hk]
    obtain ⟨u, hu, hpu, hat, hrsp, -⟩ := h.step_genBlock hk hp
    exact ⟨u, hu, hpu, hat, fun _ => hrsp, fun hgt => by omega⟩
  · rw [positionAfter_of_ge (by omega)] at h ⊢
    obtain ⟨u, hu, hpu, hat, hrsp, hdout⟩ := h.step_genBlock_exhausted hp
    exact ⟨u, hu, hpu, hat, fun hle => by omega, fun _ => ⟨hrsp, hdout⟩⟩

/-- A run of GEN_BLOCKs moves on by as many positions as there are, up to 2^64 - 1. -/
theorem AtBlock.run_genBlocks {dins : List Bus} (h : AtBlock s (positionAfter k) t)
    (hp : t.pending = dins.map (.command 0x00000004) ++ rest) :
    ∃ u, core.run dins.length t = .next u ∧ u.pending = rest ∧ AtBlock s (positionAfter (k + dins.length)) u := by
  induction dins generalizing k t with
  | nil => exact ⟨t, rfl, hp, h⟩
  | cons din dins ih =>
    obtain ⟨u, hu, hpu, hat, -⟩ := h.step_genBlock_capacity hp
    obtain ⟨v, hv, hpv, hatv⟩ := ih hat hpu
    rw [Nat.add_right_comm] at hatv
    exact ⟨v, (run_succ _ hu).trans hv, hpv, hatv⟩

/-- Settles O45: the GEN_BLOCKs before the last one lead to the position after them, where the last one succeeds exactly within the
capacity. -/
theorem genBlockSucceedsExactlyTwoPow64MinusOneTimes : Obligations.GenBlockSucceedsExactlyTwoPow64MinusOneTimes := by
  intro s dins hs hc hne
  obtain ⟨front, din, rfl⟩ : ∃ front din, dins = front ++ [din] := ⟨_, _, (List.dropLast_append_getLast hne).symm⟩
  rw [List.map_append, List.length_append]
  have hstart : AtBlock s (positionAfter 0)
      { s with pending := front.map (.command 0x00000004) ++ [din].map (.command 0x00000004) } := ⟨rfl, rfl, rfl, hs, hc⟩
  obtain ⟨u, hu, hpu, hat⟩ := hstart.run_genBlocks rfl
  rw [Nat.zero_add] at hat
  obtain ⟨t, ht, -, hat', hok, hexhausted⟩ := hat.step_genBlock_capacity hpu
  refine ⟨t, (run_add _ 1 hu).trans (run_succ 0 ht), hok, fun hgt => ?_⟩
  obtain ⟨hrsp, hdout⟩ := hexhausted hgt
  refine ⟨hrsp, ?_, fun k hk => by rw [hdout, getElem_zeroBus]⟩
  rw [hat'.ctr, positionAfter_of_ge (k := front.length + 1) (Nat.le_of_lt hgt)]
  rfl

end Sys2Proof.Machine
end

section
/-! PROOFS. The host's operations under the whole of R163 to R167, R171 and R224 (spec 45_host_orchestrator.md,
70_reset_and_hazards.md): where seeks go, the check before writing, applying twice, a block reset, and the CounterExhausted condition. -/

namespace Sys2Proof.Machine.Orchestrator

variable {o o' : Orchestrator} {key nonce : List Byte}

/-! ## Seeks -/

/-- At the first byte of block n the instance is aligned with ctr = n (R161). -/
theorem AtByte.aligned {n : Position} (h : o.AtByte (64 * n.toNat)) : o.cur = 0 ∧ o.block.ctr = n := by
  obtain ⟨-, hcur, haligned, -⟩ := h
  have hctr := haligned (Nat.mul_mod_right 64 _)
  rw [Nat.mul_div_cancel_left _ (by decide)] at hctr
  exact ⟨Fin.ext (hcur.trans (Nat.mul_mod_right 64 _)), BitVec.eq_of_toNat_eq hctr⟩

/-- Settles O53, from the keystream byte each seek leaves the instance at. -/
theorem seeksGoToTheirPosition : Obligations.SeeksGoToTheirPosition := by
  refine ⟨fun o n hk => ?_, fun o q hk => ?_⟩
  · obtain ⟨o', hseek, hat, hsame, hmem⟩ := seek_atByte hk n
    obtain ⟨hcur, hctr⟩ := hat.aligned
    exact ⟨o', hseek, hcur, hctr, hat, hmem, hsame.key, hsame.nonce⟩
  · obtain ⟨o', hseek, hat, hsame, hmem⟩ := seekBytes_atByte hk q
    have ⟨_, hcur, _, hmid⟩ := hat
    exact ⟨o', hseek, hat, hcur, fun hz => (hmid hz).1, hmem, hsame.key, hsame.nonce, hsame.config⟩

/-- Where the CounterExhausted condition does not hold, no seek begins it (R167). -/
theorem seek_exhaustedAt_none (h : o.exhaustedAt = none) (n : Position) : (o.seek n).1.exhaustedAt = none := by
  rw [seek_exhaustedAt, exhaustedAfterSeek_none h, h, ite_self]

/-- A seek to the failing call's block position or a higher one keeps the condition, whether or not it succeeds (log 17). -/
theorem seek_exhaustedAt_of_le {p n : Position} (h : o.exhaustedAt = some p) (hn : p ≤ n) :
    (o.seek n).1.exhaustedAt = some p := by
  rw [seek_exhaustedAt, exhaustedAfterSeek_of_le h hn, h, ite_self]

/-- A seek of a keyed block to a lower position ends the condition (R167). -/
theorem seek_exhaustedAt_lower {p n : Position} (h : o.exhaustedAt = some p) (hn : n < p) (hk : o.block.keyed = true) :
    (o.seek n).1.exhaustedAt = none := by
  rw [seek_exhaustedAt, if_pos hk, exhaustedAfterSeek_lower h hn]

/-! ## The check before writing -/

/-- With a keyed block `apply_keystream` succeeds when its new blocks remain and, if it needs any, the CounterExhausted condition
does not hold (R163, R167). -/
theorem applyKeystream_ok {len : Nat} (hk : o.block.keyed = true) (hx : o.blocksNeeded len = 0 ∨ o.exhaustedAt = none)
    (hle : o.blocksNeeded len ≤ (2 ^ 64 - 1) - o.block.ctr.toNat) (buf : Nat) :
    ∃ o', o.applyKeystream buf len = (o', .ok) := by
  obtain ⟨o1, hcheck⟩ : ∃ o1, o.checkBlocks (o.blocksNeeded len) = (o1, .ok) := by
    by_cases hn : o.blocksNeeded len = 0
    · exact ⟨o, by rw [hn, checkBlocks_zero]⟩
    · exact ⟨_, checkBlocks_ok hk hn (hx.resolve_left hn) hle⟩
  obtain ⟨hsame, hctr, -, -, hcur⟩ := checkBlocks_frame hcheck
  rw [← blocksNeeded_congr hcur, ← hctr] at hle
  obtain ⟨o2, hloop⟩ := applyBytes_ok (addr := buf) (hsame.keyed.trans hk) hle
  exact ⟨o2, by simp only [applyKeystream, hcheck, hloop]⟩

/-- While the condition holds, a call with a keyed block that needs a new block returns CounterExhausted and writes nothing (R167,
log 17). -/
theorem applyKeystream_of_exhaustedAt {buf len : Nat} (hk : o.block.keyed = true) (hx : o.exhaustedAt ≠ none)
    (hn : o.blocksNeeded len ≠ 0) :
    (o.applyKeystream buf len).2 = .counterExhausted ∧ (o.applyKeystream buf len).1.mem = o.mem := by
  rw [applyKeystream_exhausted hk hn (.inl hx)]
  exact ⟨rfl, rfl⟩

/-- Settles O55: a call that passes the check runs to its end, and one that fails it only reads the position and records the condition,
which stops every later call that needs a new block. -/
theorem applyKeystreamChecksBeforeWriting : Obligations.ApplyKeystreamChecksBeforeWriting := by
  refine fun o buf len hk => ⟨fun hn => ?_, fun hx hle => ?_, fun hn hfail => ?_⟩
  · exact applyKeystream_ok hk (.inl hn) (hn ▸ Nat.zero_le _) buf
  · exact applyKeystream_ok hk (.inr hx) hle buf
  · refine ⟨_, applyKeystream_exhausted hk hn hfail, rfl, rfl, rfl, ⟨rfl, rfl, rfl, rfl, rfl, rfl⟩, fun buf' len' hn' => ?_⟩
    have hlater := applyKeystream_of_exhaustedAt (o := { o.afterGetPos with exhaustedAt := some o.block.ctr }) (buf := buf') hk
      (Option.some_ne_none _) hn'
    exact hlater.1

/-! ## Applying twice -/

variable {o0 o1 o2 o3 : Orchestrator} {buf len q : Nat}

/-- The keystream applied twice from one byte of one instance restores the memory: a byte xored twice with the same byte is itself. -/
theorem Applied.mem_of_twice (h1 : Applied o o1 buf len q) (h2 : Applied o2 o3 buf len q) (hw : Memory.WF o.mem)
    (hsame : SameInstance o o2) (hmem : o2.mem = o1.mem) : o3.mem = o.mem := by
  refine Memory.eq_of_read h2.wf hw fun x => ?_
  by_cases hx : x < buf ∨ buf + len ≤ x
  · rw [h2.outside x hx, hmem, h1.outside x hx]
  · obtain ⟨k, rfl⟩ := Nat.exists_eq_add_of_le (show buf ≤ x by omega)
    rw [h2.xored k (by omega), hmem, h1.xored k (by omega), keystreamByte_congr hsame, BitVec.xor_assoc, BitVec.xor_self,
      BitVec.xor_zero]

/-- After a successful call, the same call from the same byte of the same instance succeeds and restores the memory (R171). -/
theorem applyKeystream_again (hw : Memory.WF o.mem) (hat : o.AtByte q) (happly : o.applyKeystream buf len = (o1, .ok))
    (hat2 : o2.AtByte q) (hsame : SameInstance o o2) (hmem : o2.mem = o1.mem)
    (hx : o.exhaustedAt = none → o2.exhaustedAt = none) :
    ∃ o3, o2.applyKeystream buf len = (o3, .ok) ∧ o3.mem = o.mem := by
  obtain ⟨hcur, hctr⟩ := hat2.cur_ctr_eq hat
  have h1 := applied_of_applyKeystream_ok hw hat happly
  have hx2 : o2.blocksNeeded len = 0 ∨ o2.exhaustedAt = none := by
    rw [blocksNeeded_congr hcur]
    exact (of_applyKeystream_ok happly).imp_right fun h => hx h.1
  have hle2 := (blocksNeeded_le_iff hat2).2 (le_of_applyKeystream_ok hat happly)
  obtain ⟨o3, happly2⟩ := applyKeystream_ok hat2.1 hx2 hle2 buf
  have h2 := applied_of_applyKeystream_ok (hmem ▸ h1.wf) hat2 happly2
  exact ⟨o3, happly2, h1.mem_of_twice h2 hw hsame hmem⟩

/-- Two successful `new`s with one key and nonce, on blocks of one R, build the same instance (R162). -/
theorem sameInstance_of_new (h0 : o.new key nonce = (o0, .ok)) (h2 : o1.new key nonce = (o2, .ok))
    (hconfig : o1.block.config = o.block.config) : SameInstance o0 o2 := by
  obtain ⟨hk, hn⟩ := lengths_of_new_ok h0
  rw [new_ok _ hk hn] at h0 h2
  obtain ⟨rfl, -⟩ := Prod.mk.inj h0
  obtain ⟨rfl, -⟩ := Prod.mk.inj h2
  exact ⟨hconfig, rfl, rfl, rfl⟩

/-- A successful `new` leaves the host's memory and R, and no CounterExhausted condition holds after it (R162, R167). -/
theorem new_ok_frame (h : o.new key nonce = (o', .ok)) :
    o'.mem = o.mem ∧ o'.block.config = o.block.config ∧ o'.exhaustedAt = none := by
  obtain ⟨hk, hn⟩ := lengths_of_new_ok h
  rw [new_ok o hk hn] at h
  obtain ⟨rfl, -⟩ := Prod.mk.inj h
  exact ⟨rfl, rfl, rfl⟩

/-- Settles O58: `seek_bytes(q)`, or a second `new`, leads back to the byte the first call began at, where the same call succeeds again
and undoes it (`applyKeystream_again`). -/
theorem applyingTwiceRestoresTheBuffer : Obligations.ApplyingTwiceRestoresTheBuffer := by
  refine ⟨fun o o1 buf len q hw hat happly => ?_, fun o o0 o1 key nonce buf len hw hnew happly => ?_⟩
  · obtain ⟨hsame, hat1, -⟩ := applied_of_applyKeystream_ok hw hat happly
    obtain ⟨o2, hseek, hat2, hsame2, hmem⟩ := seekBytes_atByte hat1.1 q
    have hx : o.exhaustedAt = none → o2.exhaustedAt = none := fun h => by
      have h1 : o1.exhaustedAt = none := (applyKeystream_exhaustedAt happly).trans h
      have := seek_exhaustedAt_none h1 (q / 64)
      rwa [← seekBytes_exhaustedAt, hseek] at this
    obtain ⟨o3, happly2, hmem3⟩ := applyKeystream_again hw hat happly hat2 (hsame.trans hsame2) hmem hx
    exact ⟨o2, o3, hseek, happly2, hmem3⟩
  · obtain ⟨hmem0, hconfig0, -⟩ := new_ok_frame hnew
    rw [← hmem0] at hw ⊢
    have hat := new_atByte hnew
    obtain ⟨hsame, -⟩ := applied_of_applyKeystream_ok hw hat happly
    obtain ⟨hk, hn⟩ := lengths_of_new_ok hnew
    have hnew2 := new_ok o1 hk hn
    obtain ⟨hmem2, -, hx2⟩ := new_ok_frame hnew2
    have hsame2 := sameInstance_of_new hnew hnew2 (hsame.config.trans hconfig0)
    obtain ⟨o3, happly2, hmem3⟩ := applyKeystream_again hw hat happly (new_atByte hnew2) hsame2 hmem2 fun _ => hx2
    exact ⟨_, o3, hnew2, happly2, hmem3⟩

/-! ## A block reset under the host -/

/-- A reset under the host puts the block in its reset state and touches nothing of the host (R220, log 18). -/
theorem platformReset_eq (o : Orchestrator) : o.platformReset = { o with block := o.block.resetBlock o.block.pending } := by
  have hs : step { o.block with pending := .reset :: o.block.pending } = .next (o.block.resetBlock o.block.pending) :=
    step_reset rfl
  simp only [platformReset, hs]

theorem platformReset_frame (o : Orchestrator) :
    o.platformReset.mem = o.mem ∧ o.platformReset.cur = o.cur ∧ o.platformReset.exhaustedAt = o.exhaustedAt ∧
      o.platformReset.block.keyed = false := by
  rw [platformReset_eq]
  exact ⟨rfl, rfl, rfl, rfl⟩

/-- Without a key a call that needs a new block is a defect, and ends before it writes (R167, log 11). -/
theorem applyKeystream_unkeyed (hk : o.block.keyed = false) (hn : o.blocksNeeded len ≠ 0) (buf : Nat) :
    o.applyKeystream buf len =
      ({ o with block := (o.block.accept zeroBus o.block.pending).raise .notInitialised }, .defect) := by
  simp only [applyKeystream, checkBlocks_unkeyed hk hn]

/-- Settles O59: after the reset KEYED = 0, so the check's GET_POS fails, and `new` succeeds whatever the block's state is. -/
theorem blockResetInvalidatesTheInstance : Obligations.BlockResetInvalidatesTheInstance := by
  refine fun o buf len => ⟨fun hn => ?_, fun key nonce hk hn => ⟨_, new_ok _ hk hn, rfl, rfl⟩⟩
  obtain ⟨hmem, hcur, -, hkeyed⟩ := platformReset_frame o
  rw [← blocksNeeded_congr hcur] at hn
  rw [applyKeystream_unkeyed hkeyed hn]
  exact ⟨rfl, hmem⟩

/-! ## The CounterExhausted condition -/

/-- A call that returns CounterExhausted failed in its check: the loop never answers it (R163). -/
theorem checkBlocks_of_applyKeystream_exhausted (h : o.applyKeystream buf len = (o', .counterExhausted)) :
    o.checkBlocks (o.blocksNeeded len) = (o', .counterExhausted) := by
  rw [applyKeystream] at h
  split at h
  · exact absurd rfl (applyBytes_exhaustedAt h).2
  · next hcheck => exact hcheck.trans h

/-- `apply_keystream` begins the condition at its block position exactly when it returns CounterExhausted, and no other call of it
changes the condition (R167). -/
theorem applyKeystream_condition {r : HostResult} (h : o.applyKeystream buf len = (o', r)) :
    (r = .counterExhausted → o'.exhaustedAt = some o.block.ctr ∧ o'.block.ctr = o.block.ctr) ∧
    (r ≠ .counterExhausted → o'.exhaustedAt = o.exhaustedAt) := by
  have he := applyKeystream_exhaustedAt h
  refine ⟨fun hr => ?_, fun hr => he.trans (if_neg hr)⟩
  subst hr
  obtain ⟨-, hctr, -⟩ := checkBlocks_frame (checkBlocks_of_applyKeystream_exhausted h)
  exact ⟨he.trans (if_pos rfl), hctr⟩

/-- get_block_position keeps the condition (R166). -/
theorem getBlockPosition_exhaustedAt (o : Orchestrator) : o.getBlockPosition.1.exhaustedAt = o.exhaustedAt := by
  obtain ⟨-, -, hx⟩ := command_frame o .getPos zeroBus
  exact hx

/-- A `new` with a wrong length keeps the condition (R167). -/
theorem new_exhaustedAt_of_badLength (h : key.length ≠ 32 ∨ nonce.length ≠ 8) :
    (o.new key nonce).1.exhaustedAt = o.exhaustedAt := by
  rcases new_invalidLength o h with ⟨-, e⟩ | ⟨-, e⟩ <;> rw [e]

/-- No `new` begins the condition (R167). -/
theorem new_exhaustedAt_none (h : o.exhaustedAt = none) (key nonce : List Byte) : (o.new key nonce).1.exhaustedAt = none := by
  rw [new_exhaustedAt, h, ite_self]

/-- Settles O60, from what each operation leaves of the condition. -/
theorem counterExhaustedHoldsUntilALowerSeekOrNew : Obligations.CounterExhaustedHoldsUntilALowerSeekOrNew := by
  refine ⟨fun o o' buf len r => applyKeystream_condition, fun o p hp => ?_, fun o hx => ?_, fun o key nonce hk hn => ?_⟩
  · obtain ⟨-, -, hreset, -⟩ := platformReset_frame o
    have hx : o.exhaustedAt ≠ none := by simp [hp]
    refine ⟨fun buf len hk hn => applyKeystream_of_exhaustedAt hk hx hn, (getBlockPosition_exhaustedAt o).trans hp,
      hreset.trans hp, fun n hn => seek_exhaustedAt_of_le hp hn, fun q hq => ?_, fun key nonce hbad => (new_exhaustedAt_of_badLength hbad).trans hp, fun n hn hk => ?_, fun q hq hk => ?_⟩
    · rw [seekBytes_exhaustedAt]
      exact seek_exhaustedAt_of_le hp hq
    · have hlower := seek_exhaustedAt_lower hp hn hk
      obtain ⟨o', hseek, -⟩ := seek_atByte hk n
      rw [hseek] at hlower
      exact ⟨o', hseek, hlower⟩
    · have hlower := seek_exhaustedAt_lower hp hq hk
      obtain ⟨o', hseek, -⟩ := seekBytes_atByte hk q
      rw [← seekBytes_exhaustedAt, hseek] at hlower
      exact ⟨o', hseek, hlower⟩
  · obtain ⟨-, -, hreset, -⟩ := platformReset_frame o
    refine ⟨(getBlockPosition_exhaustedAt o).trans hx, hreset.trans hx, seek_exhaustedAt_none hx, fun q => ?_,
      new_exhaustedAt_none hx⟩
    rw [seekBytes_exhaustedAt]
    exact seek_exhaustedAt_none hx _
  · obtain ⟨-, -, hx⟩ := new_ok_frame (new_ok o hk hn)
    exact ⟨_, new_ok o hk hn, hx⟩

end Sys2Proof.Machine.Orchestrator
end
